-- ==== Sys2Proof/Word.lean ====
section
/-! DEFINITION. The two widths of the hardware: the byte, which is the unit of every payload, frame and chunk
(spec/20_memory.md R25, spec/00_scope.md R7), and the 16-bit word, which is the width of the checksum state
(R7, CRC_WIDTH) and of one command beat (spec/30_encoding.md R44). Nothing is signed (00_scope.md section 6). -/

namespace Sys2Proof

/-- A byte, 0x00 to 0xFF (R25). -/
abbrev Byte := BitVec 8

/-- A 16-bit word: a value of `crc` (R10) or one command beat (R44). -/
abbrev Word := BitVec 16

end Sys2Proof
end

