-- ==== Sys2Proof/Config.lean ====
section
/-! DEFINITION. The parameters the spec leaves to the implementation (spec/00_scope.md R8), fixed for the life of an
instance of the hardware (spec/10_state.md R20, R22). None is hard-wired: each is a field of `Config`, and a state
carries the `Config` of its instance, so that a claim about every state is a claim about every choice of CRC_INIT,
CRC_MIX and TAIL_MAX. OUTQ_MAX and PAYLOAD_MAX are `none` in the spec (D10, D16), so they have no field.
The spec leaves no value undefined (93_implementation_defined.md: nothing is `any value`), so there is no free value. -/

namespace Sys2Proof

/-- Direction of the shift inside one xor/shift stage of CRC_MIX. R68 lists it among what EBC does not print. -/
inductive ShiftDir where
  | left
  | right
  deriving DecidableEq, Repr

/-- One "xor/shift operation" of CRC_MIX (R68, stages 3 to 5): the value is exclusive-ored with a shifted copy of
itself. The three fields are the three things R68 says EBC leaves open: the direction, the amount, and whether the
shifted copy is first masked to its low byte. -/
structure XorShift where
  dir         : ShiftDir
  amount      : Nat
  lowByteOnly : Bool
  deriving DecidableEq, Repr

/-- The parameter CRC_MIX as plain data (R8: a function (16-bit, byte) -> 16-bit).
`stages` is the five-stage shape EBC describes: stages 1 and 2 are EBC's, the three constants of stages 3 to 5 are
given (R68, R69). `table` is an arbitrary function written out as rows, the value `otherwise` standing for every pair
that has no row; since there are finitely many pairs, every function of R8's type is a `table`
(Sys2Proof.Laws.crcMix_every_function). -/
inductive CrcMix where
  | stages (s3 s4 s5 : XorShift)
  | table (rows : List ((Word × Byte) × Word)) (otherwise : Word)
  deriving DecidableEq, Repr

/-- The parameters of one instance (R8). `tailMax` is TAIL_MAX: `none`, or `some N`. -/
structure Config where
  crcInit : Word
  crcMix  : CrcMix
  tailMax : Option Nat
  deriving DecidableEq, Repr

end Sys2Proof
end

