-- ==== Sys2Proof/Machine/Params.lean ====
section
/-! DEFINITION. The constants EBC fixes (spec/00_scope.md R7) and the values this spec takes for the parameters it leaves
open (R8; spec/41_crc.md R69). -/

namespace Sys2Proof.Machine

/-- DELIM, the frame delimiter byte (R7). -/
def delim : Byte := 0x00#8

/-- MAX_RUN, the largest number of literal bytes one pointer byte covers (R7). -/
def maxRun : Nat := 254

/-- PTR_FULL, the pointer byte of a block of MAX_RUN literals (R7). -/
def ptrFull : Byte := 0xFF#8

/-- PTR_MIN, the smallest legal pointer byte, that of a block without literals (R7, R39). -/
def ptrMin : Byte := 0x01#8

/-- CRC_INIT as this spec takes it. PRESUMED: the spec marks the value `[from general knowledge, not in source]` (R8, D2,
G1; notes/assumptions/2.md). -/
def defaultCrcInit : Word := 0xFFFF#16

/-- CRC_MIX as this spec takes it (R69). Stages 1 and 2 are EBC's; PRESUMED: the constants of stages 3 to 5 are `[from
general knowledge, not in source]` (D3, G2; notes/assumptions/2.md). -/
def defaultCrcMix : CrcMix :=
  .stages
    { dir := .right, amount := 4, lowByteOnly := true }
    { dir := .left, amount := 12, lowByteOnly := false }
    { dir := .left, amount := 5, lowByteOnly := true }

/-- The parameter values this spec takes: TAIL_MAX is `none`, "the source's behaviour" (R8, D9). -/
def defaultConfig : Config :=
  { crcInit := defaultCrcInit, crcMix := defaultCrcMix, tailMax := none }

end Sys2Proof.Machine
end

