-- ==== Sys2Proof/Machine/Operands.lean ====
section
/-! DEFINITION. How operand bytes are used (spec/30_encoding.md R40, R46): as a zero-extended summand of the checksum, or
as a pointer byte. Every other operand byte is only compared with 0x00 or copied. -/

namespace Sys2Proof.Machine

/-- `zext_16(b)`: bits 15 to 8 zero (00_scope.md section 6; R46). -/
def zext16 (b : Byte) : Word := b.zeroExtend 16

/-- The pointer byte of a block of `n` literals, n <= 254: "a pointer byte equal to `chunk_length + 1`" (R40). -/
def pointerByte (n : Nat) : Byte := BitVec.ofNat 8 (n + 1)

/-- How many literals follow a pointer byte `p`, which is not 0: `p - 1` (R38, R40). -/
def literalCount (p : Byte) : Nat := p.toNat - 1

/-- Whether a 0x00 of the payload stands after a block that is not the last one: not after PTR_FULL (R39). -/
def impliesDelim (p : Byte) : Bool := p != ptrFull

end Sys2Proof.Machine
end

