-- ==== Sys2Proof/Syntax.lean ====
section
/-! DEFINITION. The operations of the hardware (spec/30_encoding.md R47: "the whole instruction set"), the fields of a
command beat (R44), and the shapes of results, errors and events (R49; spec/60_exceptions.md R90; spec/10_state.md R15). -/

namespace Sys2Proof

/-- The seven operations, one constructor per row of spec/opcode_table.json, with the operand of R45: none, one byte,
or a byte sequence of any finite length (PAYLOAD_MAX = `none`). -/
inductive Instr where
  /-- CRC.RESET, op 0x0 (R66). -/
  | crcReset
  /-- CRC.STEP b, op 0x1 (R67). -/
  | crcStep (b : Byte)
  /-- CRC.READ, op 0x2 (R70). -/
  | crcRead
  /-- CRC.FINISH, op 0x3 (R71). -/
  | crcFinish
  /-- COBS.ENC s, op 0x4 (R53); `s` is a payload. -/
  | cobsEnc (s : List Byte)
  /-- COBS.DEC s, op 0x5 (R58); `s` is a frame interior. -/
  | cobsDec (s : List Byte)
  /-- FA.CHUNK s, op 0x6 (R77, R83); `s` is a transport chunk. -/
  | faChunk (s : List Byte)
  deriving DecidableEq, Repr

/-- The operation a beat names in its `op` field, without its operand. -/
inductive Opcode where
  | crcReset
  | crcStep
  | crcRead
  | crcFinish
  | cobsEnc
  | cobsDec
  | faChunk
  deriving DecidableEq, Repr

/-- The fields of one command beat, bits 15:12, 11:10, 9, 8 and 7:0 (R44). -/
structure Beat where
  op   : BitVec 4
  rsv  : BitVec 2
  nd   : Bool
  last : Bool
  data : Byte
  deriving DecidableEq, Repr

/-- Which condition of R48 makes a beat illegal. The spec lists the conditions and gives them no names: the names are
the model's (notes/assumptions/6.md). -/
inductive IllegalBeat where
  /-- `op` is 0x7 to 0xF. -/
  | reservedOp
  /-- `rsv` is not 00. -/
  | reservedBits
  /-- `nd` = 1 with `last` = 0 or with `data` not 0x00. -/
  | emptyBeatForm
  /-- `op` is 0x0, 0x2 or 0x3 with `nd` = 0. -/
  | unwantedOperand
  /-- `op` is 0x1 with `nd` = 1 or `last` = 0. -/
  | byteOperandForm
  /-- The beat follows a beat with `last` = 0 and has a different `op`. -/
  | interruptsOperand
  /-- The beat follows a beat with `last` = 0 and has `nd` = 1. -/
  | emptyBeatInside
  deriving DecidableEq, Repr

/-- What the hardware makes of the beats presented so far. -/
inductive Fetched where
  /-- No operation has had its final beat yet; "beats before the final one change no state" (R45). -/
  | waiting
  /-- The first operation is complete; `rest` are the beats after its final one. -/
  | op (i : Instr) (rest : List Word)
  /-- An illegal beat; `rest` are the beats after it. It and the unfinished operand before it are refused (R48). -/
  | illegal (why : IllegalBeat) (rest : List Word)
  deriving DecidableEq, Repr

/-- The causes of MalformedFrame (R59, R90). -/
inductive Cause where
  /-- ZERO_POINTER: the byte at a pointer position was 0x00. -/
  | zeroPointer
  /-- ZERO_LITERAL: a byte at a literal position was 0x00. -/
  | zeroLiteral
  /-- OVERRUN: the input ended before the literals a pointer byte promised. -/
  | overrun
  deriving DecidableEq, Repr

/-- The error codes a `FrameError` event can carry (R90): a MalformedFrame cause, or FRAME_TOO_LONG (R91). -/
inductive ErrorCode where
  | malformed (c : Cause)
  | frameTooLong
  deriving DecidableEq, Repr

/-- What COBS.DEC answers (R49): `Ok(s)`, or `Err(MalformedFrame(cause))` with no bytes. -/
inductive Decoded where
  | ok (payload : List Byte)
  | err (cause : Cause)
  deriving DecidableEq, Repr

/-- The result of an operation that has one (R49). -/
inductive Result where
  /-- CRC.READ and CRC.FINISH: one 16-bit number. -/
  | word (v : Word)
  /-- COBS.ENC: a byte sequence. -/
  | bytes (s : List Byte)
  /-- COBS.DEC: `Ok` or `Err`. -/
  | decoded (d : Decoded)
  deriving DecidableEq, Repr

/-- One entry of the output log `out` (R15). -/
inductive Event where
  /-- `Payload(bytes)`: a decoded payload. -/
  | payload (bytes : List Byte)
  /-- `FrameError(code)`: a per-frame failure. -/
  | frameError (code : ErrorCode)
  deriving DecidableEq, Repr

end Sys2Proof
end

