-- ==== Sys2Proof/WellFormed.lean ====
section
/-! DEFINITION. What the spec requires of what comes from outside the hardware: the beats of a command
(spec/30_encoding.md R44, R45, R48) and the parameters of an instance (spec/00_scope.md R8). Written from R48's list and
apart from the decoder, so that the two can be compared.
An `Instr` carries no check of its own: every operand is legal for its operation (R45, R53, R58, R67, R77), and the types
admit nothing else. -/

namespace Sys2Proof

/-- `op` is one of the seven operation numbers; 0x7 to 0xF are reserved (R47, R48). -/
def Beat.opAssigned (b : Beat) : Bool := b.op.toNat ≤ 6

/-- `rsv` is 00 (R44, R48). -/
def Beat.rsvClear (b : Beat) : Bool := b.rsv.toNat == 0

/-- A beat without a data byte is the final beat and has `data` 0x00 (R44, R48). -/
def Beat.emptyFormOk (b : Beat) : Bool := !b.nd || (b.last && b.data.toNat == 0)

/-- CRC.RESET, CRC.READ and CRC.FINISH carry no operand: op 0x0, 0x2, 0x3 need `nd` = 1 (R45 (a), R48). -/
def Beat.noOperandOk (b : Beat) : Bool :=
  !(b.op.toNat == 0 || b.op.toNat == 2 || b.op.toNat == 3) || b.nd

/-- CRC.STEP is one beat with its byte: op 0x1 needs `nd` = 0 and `last` = 1 (R45 (b), R48). -/
def Beat.byteOperandOk (b : Beat) : Bool := !(b.op.toNat == 1) || (!b.nd && b.last)

/-- No condition of R48 that looks at the beat alone makes it illegal. -/
def Beat.wf (b : Beat) : Bool :=
  b.opAssigned && b.rsvClear && b.emptyFormOk && b.noOperandOk && b.byteOperandOk

/-- The condition of R48 on two beats in a row: after a beat with `last` = 0 the next one has the same `op` and a data
byte. -/
def Beat.mayFollow (previous b : Beat) : Bool :=
  previous.last || (b.op.toNat == previous.op.toNat && !b.nd)

/-- A legal sequence of beats of ONE operation (R45, R48): every beat legal by itself, each legal after the one before
it, and `last` = 1 on the final beat and on no other. -/
def beatsWf : List Beat → Bool
  | [] => false
  | [b] => b.wf && b.last
  | b :: c :: rest => b.wf && !b.last && b.mayFollow c && beatsWf (c :: rest)

/-- The beats of a sequence operand that has not had its final beat yet (R45 (c)): legal so far, `last` = 0 on all. -/
def openOperand : List Beat → Bool
  | [] => true
  | [b] => b.wf && !b.last
  | b :: c :: rest => b.wf && !b.last && b.mayFollow c && openOperand (c :: rest)

/-- TAIL_MAX is `none` or a natural number N >= 1 (R8). -/
def Config.wf (c : Config) : Bool :=
  match c.tailMax with
  | none => true
  | some n => 1 ≤ n

end Sys2Proof
end

