-- ==== Sys2Proof/Decode.lean ====
section
/-! DEFINITION. The command decoder and encoder (spec/30_encoding.md R44 to R48): from the 16-bit beats a host presents
to the operation they spell, or to the condition of R48 that makes a beat illegal; and back. -/

namespace Sys2Proof

/-- The fields of a beat, read from its 16 bits (R44). -/
def Beat.ofWord (w : Word) : Beat :=
  { op := w.extractLsb' 12 4
    rsv := w.extractLsb' 10 2
    nd := w.getLsbD 9
    last := w.getLsbD 8
    data := w.extractLsb' 0 8 }

/-- The 16 bits of a beat, written from its fields (R44). -/
def Beat.toWord (b : Beat) : Word :=
  b.op ++ b.rsv ++ BitVec.ofBool b.nd ++ BitVec.ofBool b.last ++ b.data

/-- The operation an operation number stands for; 0x7 to 0xF are reserved (R47). -/
def opcodeOf (op : BitVec 4) : Option Opcode :=
  match op.toNat with
  | 0x0 => some .crcReset
  | 0x1 => some .crcStep
  | 0x2 => some .crcRead
  | 0x3 => some .crcFinish
  | 0x4 => some .cobsEnc
  | 0x5 => some .cobsDec
  | 0x6 => some .faChunk
  | _ => none

/-- The operation number of an operation (R47). -/
def Opcode.number : Opcode → BitVec 4
  | .crcReset => 0x0#4
  | .crcStep => 0x1#4
  | .crcRead => 0x2#4
  | .crcFinish => 0x3#4
  | .cobsEnc => 0x4#4
  | .cobsDec => 0x5#4
  | .faChunk => 0x6#4

/-- An operation with its operand bytes. CRC.STEP takes the one byte of its one beat; the operations without an operand
take none (R45). -/
def Opcode.withOperand (op : Opcode) (s : List Byte) : Instr :=
  match op with
  | .crcReset => .crcReset
  | .crcStep => .crcStep (s.headD 0#8)
  | .crcRead => .crcRead
  | .crcFinish => .crcFinish
  | .cobsEnc => .cobsEnc s
  | .cobsDec => .cobsDec s
  | .faChunk => .faChunk s

/-- The first condition of R48 that the beat breaks by itself, in the order R48 lists them; otherwise its operation. -/
def checkBeat (b : Beat) : Except IllegalBeat Opcode :=
  match opcodeOf b.op with
  | none => .error .reservedOp
  | some op =>
    if b.rsv ≠ 0#2 then .error .reservedBits
    else if b.nd && (!b.last || b.data != 0#8) then .error .emptyBeatForm
    else
      match op with
      | .crcReset | .crcRead | .crcFinish =>
        if b.nd then .ok op else .error .unwantedOperand
      | .crcStep => if b.nd || !b.last then .error .byteOperandForm else .ok op
      | .cobsEnc | .cobsDec | .faChunk => .ok op

/-- The operand bytes a beat carries: its data byte, or none when `nd` = 1 (R44). -/
def Beat.operand (b : Beat) : List Byte := if b.nd then [] else [b.data]

/-- The beats after a beat with `last` = 0: `op` is the operation begun and `got` the operand bytes so far (R45 (c)). -/
def decodeMore (op : Opcode) (got : List Byte) : List Word → Fetched
  | [] => .waiting
  | w :: rest =>
    let b := Beat.ofWord w
    match checkBeat b with
    | .error why => .illegal why rest
    | .ok op' =>
      if op' ≠ op then .illegal .interruptsOperand rest
      else if b.nd then .illegal .emptyBeatInside rest
      else if b.last then .op (op.withOperand (got ++ [b.data])) rest
      else decodeMore op (got ++ [b.data]) rest

/-- The first operation of a list of beats. Total on any words: a whole operation, an illegal beat by name, or not
enough beats yet (R45, R48). -/
def decode : List Word → Fetched
  | [] => .waiting
  | w :: rest =>
    let b := Beat.ofWord w
    match checkBeat b with
    | .error why => .illegal why rest
    | .ok op =>
      if b.last then .op (op.withOperand b.operand) rest
      else decodeMore op b.operand rest

/-- One beat of an operation with its fields (R44); the reserved bits are 00. -/
def beatWord (op : Opcode) (nd last : Bool) (data : Byte) : Word :=
  Beat.toWord { op := op.number, rsv := 0#2, nd := nd, last := last, data := data }

/-- The beats of a sequence operand (R45 (c)). -/
def encodeSeq (op : Opcode) : List Byte → List Word
  | [] => [beatWord op true true 0#8]
  | [b] => [beatWord op false true b]
  | b :: c :: rest => beatWord op false false b :: encodeSeq op (c :: rest)

/-- The beats of an operation (R45, R47). -/
def encode : Instr → List Word
  | .crcReset => [beatWord .crcReset true true 0#8]
  | .crcStep b => [beatWord .crcStep false true b]
  | .crcRead => [beatWord .crcRead true true 0#8]
  | .crcFinish => [beatWord .crcFinish true true 0#8]
  | .cobsEnc s => encodeSeq .cobsEnc s
  | .cobsDec s => encodeSeq .cobsDec s
  | .faChunk s => encodeSeq .faChunk s

/-- The beats of a program, operation after operation (R50). -/
def encodeAll (is : List Instr) : List Word := is.flatMap encode

/-- The mnemonic of an operation (R47, R50). -/
def Instr.mnemonic : Instr → String
  | .crcReset => "CRC.RESET"
  | .crcStep _ => "CRC.STEP"
  | .crcRead => "CRC.READ"
  | .crcFinish => "CRC.FINISH"
  | .cobsEnc _ => "COBS.ENC"
  | .cobsDec _ => "COBS.DEC"
  | .faChunk _ => "FA.CHUNK"

/-- A list of beats that is the unfinished operand of an operation, with one more beat, the final one, of the same operation
and with the data byte 0x00; any other list as it is (notes/assumptions/7.md). -/
def finishOperand (ws : List Word) : List Word :=
  match decode ws with
  | .waiting =>
    match ws.getLast? with
    | none => ws
    | some w =>
      ws ++ [Beat.toWord
        { op := (Beat.ofWord w).op, rsv := 0#2, nd := false, last := true, data := 0#8 }]
  | .op _ _ => ws
  | .illegal _ _ => ws

/-- The beats of a number of `nbits` bits, the first beat in its bits 15:0, as spec/opcode_table.json numbers them. A row
of a sequence operation gives one beat only, which may be one that is not final; `finishOperand` completes it with an
operand byte of zeros. -/
def tableBeats (nbits w : Nat) : List Word :=
  finishOperand ((List.range (nbits / 16)).map fun k => BitVec.ofNat 16 (w >>> (16 * k)))

/-- The instruction the decoder reads from the bits of an opcode-table row. -/
def decodeTableWord (nbits w : Nat) : Option Instr :=
  match decode (tableBeats nbits w) with
  | .op i [] => some i
  | .op _ (_ :: _) => none
  | .waiting => none
  | .illegal _ _ => none

end Sys2Proof
end

