-- ==== Sys2Proof/Machine/State.lean ====
section
/-! DEFINITION. The state of one instance of the hardware (spec/10_state.md R9 to R23), the reasons a step can stop, and
reset (spec/70_reset_and_hazards.md R106). -/

namespace Sys2Proof.Machine

/-- The state. `crc`, `tail`, `drop` and `out` are the four elements of the architectural state, "and nothing else" (R9).
The other three fields are the model's own, because the host's interface asks one step to be a function of the state:
`config`, the instance's parameters, which no operation changes (R20, R22; notes/assumptions/1.md);
`beats`, the command beats the host has presented and the hardware has not yet taken, oldest first (R44, R45;
notes/assumptions/3.md); and `result`, what the last operation returned, `none` when it returns nothing (R49;
notes/assumptions/4.md). -/
structure State where
  /-- The parameters of the instance (R8). -/
  config : Config
  /-- The Checksum State (R10). -/
  crc    : Word
  /-- The Assembler Buffer (R11), first byte received first. -/
  tail   : List Byte
  /-- 1 while the rest of an over-long frame is being discarded (R13). -/
  drop   : Bool
  /-- The output log, oldest event first (R15). -/
  out    : List Event
  /-- Command beats presented and not yet taken. -/
  beats  : List Word
  /-- The result of the operation last executed. -/
  result : Option Result
  deriving DecidableEq, Repr

/-- Faults: none. "No condition in this core is fatal to the process; all failures are scoped to the single frame that
triggered them" (spec/60_exceptions.md R88): a MalformedFrame is a result or an event, a FrameTooLong is an event, and
the machine goes on. Safe: a type without constructors allows no fault, and the spec has none to allow. -/
inductive Fault where
  deriving DecidableEq, Repr

/-- Refusals. -/
inductive Refusal where
  /-- Raised by no arm of `exec` in this model; kept for the host's checklist. Safe: the model would stop. -/
  | notModelled (mnemonic : String)
  /-- Raised by `step` on a beat that R48 calls illegal: "The hardware refuses an illegal beat". Safe: the model stops,
  as R92 and U8 ask ("A model refuses such a command at its boundary"); notes/assumptions/5.md. -/
  | illegalBeat (why : IllegalBeat)
  deriving DecidableEq, Repr

/-- The state right after reset of an instance with given parameters (R23, R106): crc = CRC_INIT, tail = [], drop = 0,
out = []. The command port is empty and no result is held (notes/assumptions/3.md, 4.md). -/
def State.resetWith (c : Config) : State :=
  { config := c, crc := c.crcInit, tail := [], drop := false, out := [], beats := [], result := none }

/-- The machine right after reset, with the parameter values this spec takes (R8). -/
def State.reset : State := State.resetWith defaultConfig

end Sys2Proof.Machine
end

