-- ==== Sys2Proof/Machine/Flags.lean ====
section
/-! DEFINITION. The hardware has no flag register, no condition code and no status register (spec/10_state.md R19, R20). The
outcome of an operation stands in its result or in an event of `out` and leaves no sticky bit. This file holds the numbers
those outcomes carry (spec/60_exceptions.md R90) and the kinds they belong to (R88, R89, R91). -/

namespace Sys2Proof.Machine

/-- The 8-bit code of an error (R90). The numbers are labels of the spec (D7). -/
def errorNumber : ErrorCode → Byte
  | .malformed .zeroPointer => 0x01#8
  | .malformed .zeroLiteral => 0x02#8
  | .malformed .overrun => 0x03#8
  | .frameTooLong => 0x10#8

/-- Whether an error is of the kind MalformedFrame, "the only error kind in the codec" (R89); the other kind is
FrameTooLong (R91). -/
def isMalformedFrame : ErrorCode → Bool
  | .malformed _ => true
  | .frameTooLong => false

end Sys2Proof.Machine
end

