-- ==== Sys2Proof/Machine/Ops.lean ====
section
/-! DEFINITION. The shared operations: the sequence primitives and state writes of spec/20_memory.md R34, the reporting of
a frame's failure (spec/60_exceptions.md R94, R91), the delivery of a result (spec/30_encoding.md R49), the command port,
and the reset event. The hardware has no memory and no addresses (R24, R36): these are all the accesses there are. -/

namespace Sys2Proof.Machine

/-- `find(s, v)`: the least index of `v` in `s` (00_scope.md section 6). -/
def findByte (v : Byte) : List Byte → Option Nat
  | [] => none
  | b :: s => if b = v then some 0 else (findByte v s).map (· + 1)

/-- How many bytes of `s` equal `v`. -/
def countByte (v : Byte) : List Byte → Nat
  | [] => 0
  | b :: s => if b = v then countByte v s + 1 else countByte v s

/-- `crc <- v`. -/
def State.setCrc (v : Word) (s : State) : State := { s with crc := v }

/-- `tail <- v`. -/
def State.setTail (v : List Byte) (s : State) : State := { s with tail := v }

/-- `drop <- v`. -/
def State.setDrop (v : Bool) (s : State) : State := { s with drop := v }

/-- `out <- out ++ [e]` (R34; spec/10_state.md R15: "append only"). -/
def State.emit (e : Event) (s : State) : State := { s with out := s.out ++ [e] }

/-- The result of the operation being executed; `none` for one that returns nothing (R49). -/
def State.returns (r : Option Result) (s : State) : State := { s with result := r }

/-- The beats not yet taken. -/
def State.setBeats (ws : List Word) (s : State) : State := { s with beats := ws }

/-- Taking an error, the ONE way a failure of a frame leaves the Frame Assembler: one `FrameError(code)` event at its
place in the log (R94, R91). Nothing is saved, no mode changes, control goes nowhere (R97), and there is nothing to return
from (R99). -/
def State.reportError (code : ErrorCode) (s : State) : State := s.emit (.frameError code)

/-- The host presents command beats, after those already presented (R31 (a), R44). -/
def State.present (ws : List Word) (s : State) : State := { s with beats := s.beats ++ ws }

/-- The reset event (R106, R107): not an operation; between two operations only. The parameters of the instance stay. -/
def State.resetEvent (s : State) : State := State.resetWith s.config

/-- What the hardware holds after it has refused an illegal beat: the beat, and the unfinished operand it interrupts, are
gone from the port, and nothing else has changed (R48). A step that refuses carries no state; a host that goes on after a
refusal goes on from here (notes/assumptions/5.md). -/
def State.discardRefused (s : State) : State :=
  match decode s.beats with
  | .illegal _ rest => s.setBeats rest
  | .waiting => s
  | .op _ _ => s

/-- No operation is complete: "the hardware waits for the host's first operation", "between operations it simply holds its
state" (spec/70_reset_and_hazards.md R108; spec/60_exceptions.md R105). -/
def idle (s : State) : Host.Outcome State Fault Refusal := .next s

/-- The refusal of an illegal beat (R48, R92). -/
def refuseBeat (why : IllegalBeat) : Host.Outcome State Fault Refusal := .refused (.illegalBeat why)

end Sys2Proof.Machine
end

