-- ==== Sys2Proof/Machine/Cobs.lean ====
section
/-! DEFINITION. The COBS Codec: COBS.ENC and COBS.DEC (spec/40_cobs.md R52 to R64), pure functions of their operand that read
and write no state element (R52, spec/10_state.md R14). -/

namespace Sys2Proof.Machine

/-- `split(s)` (R54): the sub-runs of a payload, that is, the payload cut at every 0x00; always at least one. -/
def splitRuns : List Byte → List (List Byte)
  | [] => [[]]
  | b :: s =>
    if b = delim then [] :: splitRuns s
    else
      match splitRuns s with
      | [] => [[b]]
      | r :: rs => (b :: r) :: rs

/-- The `while i < n` loop of R55: chunks of at most MAX_RUN literals, greedily, each after its pointer byte. `fuel` bounds
the rounds; the length of `r` is always enough. -/
def chunkBlocks : Nat → List Byte → List Byte
  | 0, _ => []
  | _ + 1, [] => []
  | fuel + 1, b :: r =>
    let chunk := (b :: r).take maxRun
    pointerByte chunk.length :: chunk ++ chunkBlocks fuel ((b :: r).drop maxRun)

/-- `blocks(r, is_last)` (R55). The final `01` after a sub-run of 254k bytes that a 0x00 follows is the spec's correction
of EBC's procedure (spec/90_conflicts.md C1, D4). -/
def runBlocks (r : List Byte) (isLast : Bool) : List Byte :=
  if r.length = 0 then [ptrMin]
  else
    chunkBlocks r.length r
      ++ (if r.length % maxRun = 0 && !isLast then [ptrMin] else [])

/-- The blocks of the sub-runs in order; the last one is encoded as the last (R53). -/
def interiorOf : List (List Byte) → List Byte
  | [] => []
  | [r] => runBlocks r true
  | r :: q :: rs => runBlocks r false ++ interiorOf (q :: rs)

/-- The function COBS.ENC computes (R53): the frame of a payload, with both boundary delimiters. -/
def cobsEncode (s : List Byte) : List Byte := [delim] ++ interiorOf (splitRuns s) ++ [delim]

/-- Put bytes in front of the payload of a decode that succeeded; an error delivers nothing (R93). -/
def prependPayload (r : List Byte) : Decoded → Decoded
  | .ok p => .ok (r ++ p)
  | .err c => .err c

/-- The cursor loop of COBS.DEC (R58) on the input from the cursor on. `fuel` bounds the rounds; the length of the input is
always enough, since the cursor grows by at least 1 each round. -/
def decodeBlocks : Nat → List Byte → Decoded
  | 0, _ => .ok []
  | _ + 1, [] => .ok []
  | fuel + 1, p :: s =>
    if p = delim then .err .zeroPointer
    else
      let literals := s.take (literalCount p)
      let after := s.drop (literalCount p)
      if delim ∈ literals then .err .zeroLiteral
      else if s.length < literalCount p then .err .overrun
      else
        let inserted := if impliesDelim p && !after.isEmpty then [delim] else []
        prependPayload (literals ++ inserted) (decodeBlocks fuel after)

/-- The function COBS.DEC computes on a frame interior (R58, R59). -/
def cobsDecode (s : List Byte) : Decoded := decodeBlocks s.length s

/-- COBS.ENC s (R53): the result is the frame; no state element is read or written. -/
def execCobsEnc (p : List Byte) (s : State) : Host.Outcome State Fault Refusal :=
  .next (s.returns (some (.bytes (cobsEncode p))))

/-- COBS.DEC s (R58, R93): the result is `Ok(payload)` or `Err(MalformedFrame(cause))`; no state element is read or
written, and `out` gets no event. -/
def execCobsDec (interior : List Byte) (s : State) : Host.Outcome State Fault Refusal :=
  .next (s.returns (some (.decoded (cobsDecode interior))))

end Sys2Proof.Machine
end

