-- ==== Sys2Proof/Machine/Assembler.lean ====
section
/-! DEFINITION. The Frame Assembler: FA.CHUNK (spec/42_assembler.md R76 to R87). It returns nothing and never fails as an
operation; a bad frame gives a `FrameError` event and the operation goes on (R76, spec/60_exceptions.md R94). It neither
reads nor writes `crc` (spec/10_state.md R16). -/

namespace Sys2Proof.Machine

/-- `PROCESS(framed)` (R78): an empty stretch is skipped, a failing one gives an event, one that decodes to the empty
payload gives none (R79), any other emits its payload. -/
def process (framed : List Byte) (s : State) : State :=
  if framed.length = 0 then s
  else
    match cobsDecode framed with
    | .err cause => s.reportError (.malformed cause)
    | .ok p => if p.length = 0 then s else s.emit (.payload p)

/-- The `while` loop of R77: as long as `tail` holds a delimiter, take the bytes before the first one off its front, with
the delimiter, and process them. `rounds` bounds the loop (R80: at most the number of delimiters in `tail`). -/
def extractLoop : Nat → State → State
  | 0, s => s
  | rounds + 1, s =>
    match findByte delim s.tail with
    | none => s
    | some i =>
      extractLoop rounds (process (s.tail.take i) (s.setTail (s.tail.drop (i + 1))))

/-- FA.CHUNK with TAIL_MAX = `none` (R77): append the chunk, then extract every complete stretch. -/
def chunkUnbounded (chunk : List Byte) (s : State) : State :=
  let appended := s.setTail (s.tail ++ chunk)
  extractLoop (countByte delim appended.tail) appended

/-- `FEED_N(b)` (R83): one byte of the stream with TAIL_MAX = N. -/
def feedBounded (n : Nat) (b : Byte) (s : State) : State :=
  if b = delim then
    if s.drop then s.setDrop false
    else process s.tail (s.setTail [])
  else if s.drop then s
  else if s.tail.length = n then ((s.setTail []).setDrop true).reportError .frameTooLong
  else s.setTail (s.tail ++ [b])

/-- FA.CHUNK with TAIL_MAX = N (R83): `FEED_N` on each byte in index order. -/
def chunkBounded (n : Nat) (chunk : List Byte) (s : State) : State :=
  chunk.foldl (fun t b => feedBounded n b t) s

/-- What FA.CHUNK does to `tail`, `drop` and `out`, by the instance's TAIL_MAX (R77, R83). -/
def assemble (chunk : List Byte) (s : State) : State :=
  match s.config.tailMax with
  | none => chunkUnbounded chunk s
  | some n => chunkBounded n chunk s

/-- FA.CHUNK s (R77, R83). -/
def execFaChunk (chunk : List Byte) (s : State) : Host.Outcome State Fault Refusal :=
  .next ((assemble chunk s).returns none)

end Sys2Proof.Machine
end

