-- ==== Sys2Proof/Machine/Crc.lean ====
section
/-! DEFINITION. The Checksum Engine: CRC.RESET, CRC.STEP, CRC.READ, CRC.FINISH (spec/41_crc.md R65 to R75). None of the four
can fail, and none reads or writes `tail`, `drop` or `out` (R65, spec/10_state.md R16). -/

namespace Sys2Proof.Machine

/-- `ror16(v, n)` for 0 < n < 16 (00_scope.md section 6). -/
def ror16 (v : Word) (n : Nat) : Word := (v >>> n) ||| (v <<< (16 - n))

/-- One xor/shift stage of CRC_MIX (R68, R69): bits shifted out are dropped (R72). -/
def xorShift (k : XorShift) (t : Word) : Word :=
  let v := if k.lowByteOnly then t &&& 0x00FF#16 else t
  t ^^^ (match k.dir with
    | .left => v <<< k.amount
    | .right => v >>> k.amount)

/-- CRC_MIX of an instance (R68, R69): rotate right by 8, exclusive-or the byte in, three xor/shift stages; or the function
given as a table (R8). -/
def crcMix (m : CrcMix) (c : Word) (b : Byte) : Word :=
  match m with
  | .stages s3 s4 s5 => xorShift s5 (xorShift s4 (xorShift s3 (ror16 c 8 ^^^ zext16 b)))
  | .table rows otherwise => (rows.lookup (c, b)).getD otherwise

/-- `fold(CRC_MIX, c, s)` (R73). -/
def crcFold (m : CrcMix) (c : Word) (s : List Byte) : Word := s.foldl (crcMix m) c

/-- `crc_of(s)`, the checksum of a sequence from a freshly reset engine (R73). -/
def crcOf (cfg : Config) (s : List Byte) : Word := crcFold cfg.crcMix cfg.crcInit s

/-- CRC.RESET (R66): `crc <- CRC_INIT`. -/
def execCrcReset (s : State) : Host.Outcome State Fault Refusal :=
  .next ((s.setCrc s.config.crcInit).returns none)

/-- CRC.STEP b (R67): `crc <- CRC_MIX(crc, b)`. -/
def execCrcStep (b : Byte) (s : State) : Host.Outcome State Fault Refusal :=
  .next ((s.setCrc (crcMix s.config.crcMix s.crc b)).returns none)

/-- CRC.READ (R70): the raw state is returned and not changed. -/
def execCrcRead (s : State) : Host.Outcome State Fault Refusal :=
  .next (s.returns (some (.word s.crc)))

/-- CRC.FINISH (R71): the state is returned and then reset. -/
def execCrcFinish (s : State) : Host.Outcome State Fault Refusal :=
  .next ((s.setCrc s.config.crcInit).returns (some (.word s.crc)))

end Sys2Proof.Machine
end

