-- ==== Sys2Proof/Machine/Dispatch.lean ====
section
/-! DEFINITION. The dispatch: one arm per constructor of Instr (spec/30_encoding.md R47), each a call of its meaning. -/

namespace Sys2Proof.Machine

/-- One operation, executed atomically and to completion (spec/00_scope.md R5, spec/20_memory.md R30). -/
def exec (i : Instr) (s : State) : Host.Outcome State Fault Refusal :=
  match i with
  | .crcReset => Sys2Proof.Machine.execCrcReset s
  | .crcStep b => Sys2Proof.Machine.execCrcStep b s
  | .crcRead => Sys2Proof.Machine.execCrcRead s
  | .crcFinish => Sys2Proof.Machine.execCrcFinish s
  | .cobsEnc p => Sys2Proof.Machine.execCobsEnc p s
  | .cobsDec p => Sys2Proof.Machine.execCobsDec p s
  | .faChunk p => Sys2Proof.Machine.execFaChunk p s

end Sys2Proof.Machine
end

