-- ==== Sys2Proof/Machine/Step.lean ====
section
/-! DEFINITION. One step: the hardware takes the first operation whose beats the host has presented and executes it
(spec/20_memory.md R31 (a): "operations take effect one after another in the order the host issues them"). There is no
program counter and nothing is fetched from memory (spec/10_state.md R18, R35). -/

namespace Sys2Proof.Machine

/-- One step. While no operation has had its final beat the hardware holds its state (R45, R105); an illegal beat is
refused by name (R48). -/
def step (s : State) : Host.Outcome State Fault Refusal :=
  match decode s.beats with
  | .op i rest => exec i (s.setBeats rest)
  | .waiting => idle s
  | .illegal why _ => refuseBeat why

/-- `s` with the instruction of an opcode-table row's bits at the front of the command port, so that the next step takes
and executes it. This is how a program comes to run: the host presents it from outside (notes/assumptions/7.md). -/
def State.withFetchWord (s : State) (nbits w : Nat) : State :=
  s.setBeats (tableBeats nbits w ++ s.beats)

end Sys2Proof.Machine
end

