-- ==== Sys2Proof/Machine/Program.lean ====
section
/-! DEFINITION. Programs: lists of operations executed top to bottom (spec/30_encoding.md R50), the two pseudo-operations
(R51), and what a program leaves and returns. -/

namespace Sys2Proof.Machine

/-- The operations of a program one after another, each in the state the one before it left (R50; spec/20_memory.md
R31 (a)). -/
def execAll : List Instr → State → Host.Outcome State Fault Refusal
  | [], s => .next s
  | i :: is, s =>
    match exec i s with
    | .next t => execAll is t
    | .fault r => .fault r
    | .refused r => .refused r

/-- `CRC.STEPS [b0 ... bn-1]` (R51 (a)). -/
def crcSteps (s : List Byte) : List Instr := s.map .crcStep

/-- `FA.BYTES [b0 ... bn-1]` (R51 (b)). -/
def faBytes (s : List Byte) : List Instr := s.map fun b => .faChunk [b]

/-- One FA.CHUNK for each of the chunks a stream was cut into. -/
def faChunks (chunks : List (List Byte)) : List Instr := chunks.map .faChunk

/-- The stream an operation feeds to the Frame Assembler: its chunk, or nothing (spec/42_assembler.md R86). -/
def fedBytes : Instr → List Byte
  | .faChunk s => s
  | .crcReset | .crcStep _ | .crcRead | .crcFinish | .cobsEnc _ | .cobsDec _ => []

/-- Whether an operation is one of the Checksum Engine's (spec/41_crc.md R65). -/
def isChecksumOp : Instr → Bool
  | .crcReset | .crcStep _ | .crcRead | .crcFinish => true
  | .cobsEnc _ | .cobsDec _ | .faChunk _ => false

/-- Whether an operation is the Frame Assembler's (spec/42_assembler.md R76). -/
def isAssemblerOp : Instr → Bool
  | .faChunk _ => true
  | .crcReset | .crcStep _ | .crcRead | .crcFinish | .cobsEnc _ | .cobsDec _ => false

end Sys2Proof.Machine
end

