-- ==== Sys2Proof/Machine/Serial.lean ====
section
/-! DEFINITION. The other forms in which the spec gives the same functions: the chain of blocks of an interior
(spec/30_encoding.md R38, R39), the byte-serial decoder and encoder (spec/40_cobs.md R62, R63), the byte-serial assembler
(spec/42_assembler.md R81), the stream cut at its delimiters (R86), the bit-serial checksum (spec/41_crc.md R74 (d)), and
the encode procedure as EBC prints it (spec/70_reset_and_hazards.md R119). No meaning calls them: claims compare the
machine with them. -/

namespace Sys2Proof.Machine

/-- A block of an interior: one pointer byte, and its literal bytes (R38). -/
structure Block where
  pointer  : Byte
  literals : List Byte
  deriving DecidableEq, Repr

/-- A well-formed block: a pointer byte other than 0x00, exactly `p - 1` literals, each 0x01 to 0xFF (R38, R39). -/
def Block.wf (b : Block) : Bool :=
  b.pointer ≠ delim && b.literals.length = literalCount b.pointer && !b.literals.contains delim

/-- The bytes of a chain of blocks (R38). -/
def chainBytes (bs : List Block) : List Byte := bs.flatMap fun b => b.pointer :: b.literals

/-- The payload a chain of blocks stands for: the literals, and one 0x00 after every block that is not the last one and
whose pointer is not 0xFF (R39). -/
def chainPayload : List Block → List Byte
  | [] => []
  | [b] => b.literals
  | b :: c :: rest =>
    b.literals ++ (if b.pointer = ptrFull then [] else [delim]) ++ chainPayload (c :: rest)

/-- The registers of the byte-serial decoder of R62: the result so far, the literals still due, and the open block's
pointer byte. Not architectural state. -/
structure SerialDecoder where
  r    : List Byte
  rem  : Nat
  prev : Option Byte
  deriving DecidableEq, Repr

/-- One byte of the byte-serial decoder (R62). -/
def serialDecodeByte (d : SerialDecoder) (b : Byte) : Except Cause SerialDecoder :=
  if d.rem = 0 then
    if b = delim then .error .zeroPointer
    else
      let inserted :=
        match d.prev with
        | none => []
        | some p => if p = ptrFull then [] else [delim]
      .ok { r := d.r ++ inserted, rem := b.toNat - 1, prev := some b }
  else if b = delim then .error .zeroLiteral
  else .ok { d with r := d.r ++ [b], rem := d.rem - 1 }

/-- The byte-serial decoder from a given setting of its registers to the end of the input (R62). -/
def serialDecodeFrom (d : SerialDecoder) : List Byte → Decoded
  | [] => if d.rem > 0 then .err .overrun else .ok d.r
  | b :: s =>
    match serialDecodeByte d b with
    | .error c => .err c
    | .ok d' => serialDecodeFrom d' s

/-- The byte-serial decoder (R62). -/
def serialDecode (s : List Byte) : Decoded := serialDecodeFrom { r := [], rem := 0, prev := none } s

/-- The registers of the single-pass encoder of R63. Not architectural state. -/
structure SerialEncoder where
  r    : List Byte
  blk  : List Byte
  full : Bool
  deriving DecidableEq, Repr

/-- One byte of the single-pass encoder (R63). -/
def serialEncodeByte (e : SerialEncoder) (b : Byte) : SerialEncoder :=
  if b = delim then
    if e.full then { e with r := e.r ++ [ptrMin], full := false }
    else { e with r := e.r ++ [pointerByte e.blk.length] ++ e.blk, blk := [] }
  else
    let blk := e.blk ++ [b]
    if blk.length = maxRun then { r := e.r ++ [ptrFull] ++ blk, blk := [], full := true }
    else { r := e.r, blk := blk, full := false }

/-- The single-pass encoder (R63). -/
def serialEncode (s : List Byte) : List Byte :=
  let e := s.foldl serialEncodeByte { r := [delim], blk := [], full := false }
  (if e.full then e.r else e.r ++ [pointerByte e.blk.length] ++ e.blk) ++ [delim]

/-- `FEED(b)`, one byte of the stream with TAIL_MAX = `none` (R81). -/
def feed (b : Byte) (s : State) : State :=
  if b = delim then process s.tail (s.setTail []) else s.setTail (s.tail ++ [b])

/-- A stream cut at every 0x00 (R86): the stretches a delimiter ends, in order, and what follows the last delimiter. -/
def cutAtDelims : List Byte → List (List Byte) × List Byte
  | [] => ([], [])
  | b :: s =>
    let cut := cutAtDelims s
    if b = delim then ([] :: cut.1, cut.2)
    else
      match cut.1 with
      | [] => ([], b :: cut.2)
      | g :: gs => ((b :: g) :: gs, cut.2)

/-- The events of one delimited stretch (R78, R86). -/
def stretchEvents (g : List Byte) : List Event :=
  if g = [] then []
  else
    match cobsDecode g with
    | .err c => [.frameError (.malformed c)]
    | .ok [] => []
    | .ok (b :: p) => [.payload (b :: p)]

/-- The events of one delimited stretch with TAIL_MAX = `n` (R83). -/
def stretchEventsBounded (n : Nat) (g : List Byte) : List Event :=
  if g.length ≤ n then stretchEvents g else [.frameError .frameTooLong]

/-- One bit of the bit-serial checksum with the polynomial 0x1021 (R74 (d)). -/
def crcBit (c : Word) : Word := if c.getLsbD 15 then (c <<< 1) ^^^ 0x1021#16 else c <<< 1

/-- The bit-serial checksum step (R74 (d)). -/
def crcBitSerial (c : Word) (b : Byte) : Word :=
  crcBit (crcBit (crcBit (crcBit (crcBit (crcBit (crcBit (crcBit (c ^^^ (zext16 b <<< 8)))))))))

/-- The interior by EBC's encode procedure to the letter, without the block `01` of R55 (R119): every sub-run encoded as
the last one is. -/
def printedInterior (s : List Byte) : List Byte := (splitRuns s).flatMap fun r => runBlocks r true

/-- How many bytes EBC's procedure loses: the sub-runs of 254k bytes, k >= 1, that a 0x00 follows (R55, R119). -/
def printedLosses (s : List Byte) : Nat :=
  ((splitRuns s).dropLast.filter fun r => r.length ≠ 0 && r.length % maxRun = 0).length

end Sys2Proof.Machine
end

