-- ==== Sys2Proof/Safety.lean ====
section
/-! DEFINITION. What a good state is: the invariant that reset establishes and every step keeps. The hardware has no
fault (spec/60_exceptions.md R88), so a run is safe when every state of it is good; the only stop is the refusal of an
illegal beat (spec/30_encoding.md R48). -/

namespace Sys2Proof.Machine

/-- The invariant between operations. -/
structure Inv (s : State) : Prop where
  /-- TAIL_MAX is `none` or N >= 1 (spec/00_scope.md R8). -/
  configWf : s.config.wf = true
  /-- `tail` contains no delimiter (spec/10_state.md R12). -/
  tailFree : delim ∉ s.tail
  /-- With TAIL_MAX = `none`, `drop` is 0 for ever (R13). -/
  dropUnbounded : s.config.tailMax = none → s.drop = false
  /-- With TAIL_MAX = N, `len(tail) <= N`, and `tail = []` whenever `drop = 1` (R12). -/
  tailBounded : ∀ n, s.config.tailMax = some n → s.tail.length ≤ n ∧ (s.drop = true → s.tail = [])
  /-- No emitted payload is empty (spec/42_assembler.md R79). -/
  payloadsNonempty : ∀ p, Event.payload p ∈ s.out → p ≠ []
  /-- The only MalformedFrame cause the assembler meets is OVERRUN (R78), and FRAME_TOO_LONG occurs only with a cap
  (spec/60_exceptions.md R91). -/
  errorsLegal : ∀ c, Event.frameError c ∈ s.out →
    c = .malformed .overrun ∨ (c = .frameTooLong ∧ s.config.tailMax ≠ none)

/-- A step from `s` is safe: it does not stop, and leaves a good state. -/
def SafeStep (s : State) : Prop := ∃ t, step s = .next t ∧ Inv t

/-- The Frame Assembler of an instance with TAIL_MAX = `none` is where the stream `stream` leaves it: `tail` is what follows
the stream's last delimiter, and `out` holds the events of the stretches before it, in order (spec/42_assembler.md R86). -/
structure FollowsStream (stream : List Byte) (s : State) : Prop where
  uncapped : s.config.tailMax = none
  tailIsOpen : s.tail = (cutAtDelims stream).2
  dropClear : s.drop = false
  outIsEvents : s.out = (cutAtDelims stream).1.flatMap stretchEvents

/-- The bytes the next step feeds to the Frame Assembler: those of the first operation presented, if its beats are all there. -/
def nextFed (s : State) : List Byte :=
  match decode s.beats with
  | .op i _ => fedBytes i
  | .waiting => []
  | .illegal _ _ => []

end Sys2Proof.Machine
end

