-- ==== Sys2Proof/Certificates/Slice0/Obligations.lean ====
section
/-! DEFINITION. The statements, from the numbered rules of spec/. A statement about an operation gives the whole next state
as an update of the state before it, so every field it does not name is unchanged. Statements hold for every parameter
value (CRC_INIT, CRC_MIX, TAIL_MAX) unless they name one. -/

open Sys2Proof Sys2Proof.Machine

/-! ### Reset -/

/-- R23, R106: reset gives every state element its reset value, whatever it held, and leaves the parameters alone; the
state right after reset has them too. -/
def Obligations.ResetGivesEveryElementItsResetValue : Prop :=
  (∀ s : State,
    s.resetEvent.crc = s.config.crcInit ∧ s.resetEvent.tail = [] ∧ s.resetEvent.drop = false ∧
    s.resetEvent.out = [] ∧ s.resetEvent.config = s.config) ∧
  (State.reset.crc = State.reset.config.crcInit ∧ State.reset.tail = [] ∧ State.reset.drop = false ∧
    State.reset.out = [])

/-! ### The Checksum Engine -/

/-- R66: CRC.RESET sets `crc` to CRC_INIT, returns nothing, changes nothing else, and is idempotent. -/
def Obligations.CrcResetSetsInitialConstant : Prop :=
  ∀ s : State,
    exec .crcReset s = .next { s with crc := s.config.crcInit, result := none } ∧
    execAll [.crcReset, .crcReset] s = exec .crcReset s ∧
    (s.crc = s.config.crcInit → exec .crcReset s = .next { s with result := none })

/-- R67: CRC.STEP b replaces `crc` by CRC_MIX(crc, b), returns nothing and changes nothing else; with the CRC_MIX of R69
the only states that the byte 0x00 leaves unchanged are 0x0000 and 0xF01F. -/
def Obligations.CrcStepFoldsOneByte : Prop :=
  ∀ (b : Byte) (s : State),
    exec (.crcStep b) s = .next { s with crc := crcMix s.config.crcMix s.crc b, result := none } ∧
    (s.config.crcMix = defaultCrcMix →
      (exec (.crcStep 0x00#8) s = .next { s with result := none } ↔ s.crc = 0x0000#16 ∨ s.crc = 0xF01F#16))

/-- R70: CRC.READ returns the raw state and changes nothing; any number of CRC.READ in a row return the same value; a
CRC.STEP after a CRC.READ goes on as if the CRC.READ had not happened. -/
def Obligations.CrcReadReturnsStateUnchanged : Prop :=
  ∀ s : State,
    exec .crcRead s = .next { s with result := some (.word s.crc) } ∧
    (∀ n, execAll (List.replicate (n + 1) .crcRead) s = .next { s with result := some (.word s.crc) }) ∧
    (∀ b, execAll [.crcRead, .crcStep b] s = exec (.crcStep b) s)

/-- R71: CRC.FINISH returns the state before the reset and leaves CRC_INIT; a second CRC.FINISH returns CRC_INIT; the next
CRC.STEP starts a new checksum. -/
def Obligations.CrcFinishReturnsThenResets : Prop :=
  ∀ s : State,
    exec .crcFinish s = .next { s with crc := s.config.crcInit, result := some (.word s.crc) } ∧
    execAll [.crcFinish, .crcFinish] s =
      .next { s with crc := s.config.crcInit, result := some (.word s.config.crcInit) } ∧
    (∀ b, execAll [.crcFinish, .crcStep b] s =
      .next { s with crc := crcMix s.config.crcMix s.config.crcInit b, result := none })

/-- R10: `crc` is written only by CRC.RESET and CRC.FINISH (to CRC_INIT), by CRC.STEP (to CRC_MIX(crc, b)) and by reset (to
CRC_INIT); it is returned by CRC.READ and CRC.FINISH; no operation of the other units reads or writes it. -/
def Obligations.CrcBelongsToTheChecksumEngine : Prop :=
  (∀ (i : Instr) (s : State), ∃ t, exec i s = .next t ∧
    (i = .crcReset ∨ i = .crcFinish → t.crc = s.config.crcInit) ∧
    (∀ b, i = .crcStep b → t.crc = crcMix s.config.crcMix s.crc b) ∧
    (i = .crcRead ∨ i = .crcFinish → t.result = some (.word s.crc)) ∧
    (i = .crcRead ∨ isChecksumOp i = false → t.crc = s.crc) ∧
    (isChecksumOp i = false → ∀ v : Word, exec i { s with crc := v } = .next { t with crc := v })) ∧
  (∀ s : State, s.resetEvent.crc = s.config.crcInit)

/-- The CRC_MIX of R69, stage by stage. Derived: the constants of stages 3 to 5 are from general knowledge, not from the
source (spec/93_implementation_defined.md G2; notes/assumptions/2.md). -/
def Obligations.DefaultCrcMixStageByStage : Prop :=
  ∀ (c : Word) (b : Byte),
    let t1 := (c >>> 8) ||| (c <<< 8)
    let t2 := t1 ^^^ b.zeroExtend 16
    let t3 := t2 ^^^ ((t2 &&& 0x00FF#16) >>> 4)
    let t4 := t3 ^^^ (t3 <<< 12)
    let t5 := t4 ^^^ ((t4 &&& 0x00FF#16) <<< 5)
    crcMix defaultCrcMix c b = t5

/-- The checksum of a sequence (spec/41_crc.md section 3): from any state, CRC.RESET, CRC.STEPS s and CRC.READ (or
CRC.FINISH) return `crc_of(s)`; without the CRC.RESET they return the fold from whatever `crc` was; after a CRC.FINISH the
next sequence starts anew. -/
def Obligations.ChecksumOfASequence : Prop :=
  ∀ (s : State) (bs cs : List Byte),
    execAll (.crcReset :: crcSteps bs ++ [.crcRead]) s =
      .next { s with crc := crcOf s.config bs, result := some (.word (crcOf s.config bs)) } ∧
    execAll (.crcReset :: crcSteps bs ++ [.crcFinish]) s =
      .next { s with crc := s.config.crcInit, result := some (.word (crcOf s.config bs)) } ∧
    execAll (crcSteps bs ++ [.crcRead]) s =
      .next { s with crc := crcFold s.config.crcMix s.crc bs,
                     result := some (.word (crcFold s.config.crcMix s.crc bs)) } ∧
    execAll (crcSteps bs ++ [.crcFinish] ++ crcSteps cs ++ [.crcRead]) s =
      .next { s with crc := crcOf s.config cs, result := some (.word (crcOf s.config cs)) }

/-- For every byte, the CRC_MIX of R69 is a bijection on the 65536 states. Derived: a fact about constants from general
knowledge (spec/41_crc.md section 3, fact (b); notes/assumptions/2.md). -/
def Obligations.DefaultCrcMixIsBijective : Prop :=
  ∀ b : Byte, Function.Bijective fun c : Word => crcMix defaultCrcMix c b

/-- The CRC_MIX of R69 is linear over exclusive-or. Derived: fact (c) of spec/41_crc.md section 3
(notes/assumptions/2.md). -/
def Obligations.DefaultCrcMixIsLinear : Prop :=
  ∀ (c₁ c₂ : Word) (b₁ b₂ : Byte),
    crcMix defaultCrcMix (c₁ ^^^ c₂) (b₁ ^^^ b₂) = crcMix defaultCrcMix c₁ b₁ ^^^ crcMix defaultCrcMix c₂ b₂

/-- The CRC_MIX of R69 equals the bit-serial form with the polynomial 0x1021. Derived: fact (d) of spec/41_crc.md section 3
(notes/assumptions/2.md). -/
def Obligations.DefaultCrcMixEqualsBitSerial : Prop :=
  ∀ (c : Word) (b : Byte), crcMix defaultCrcMix c b = crcBitSerial c b

/-- Residue: stepping a checksum's own two bytes, high byte first, after the sequence gives 0x0000, whatever the engine
started from. Derived: fact (e) of spec/41_crc.md section 3 (notes/assumptions/2.md). -/
def Obligations.DefaultCrcResidueIsZero : Prop :=
  ∀ (start : Word) (s : List Byte),
    let v := crcFold defaultCrcMix start s
    crcFold defaultCrcMix start (s ++ [v.extractLsb' 8 8, v.extractLsb' 0 8]) = 0x0000#16

/-! ### The COBS Codec -/

/-- R53: COBS.ENC returns DELIM, the blocks of the sub-runs in order (the last one marked as last), DELIM, for every
operand, and changes no state; a payload of n bytes 0x00 gives n+1 pointer bytes 01, the empty payload among them. -/
def Obligations.CobsEncReturnsTheFrame : Prop :=
  (∀ (p : List Byte) (s : State),
    exec (.cobsEnc p) s =
      .next { s with
        result := some (.bytes ([0x00#8] ++
          (splitRuns p).zipIdx.flatMap (fun rk => runBlocks rk.1 (rk.2 + 1 == (splitRuns p).length)) ++
          [0x00#8])) }) ∧
  (∀ (n : Nat) (s : State),
    exec (.cobsEnc (List.replicate n 0x00#8)) s =
      .next { s with result := some (.bytes ([0x00#8] ++ List.replicate (n + 1) 0x01#8 ++ [0x00#8])) })

/-- R54: the sub-runs are one more than the 0x00 bytes, are free of 0x00, joined with one 0x00 between neighbours give back
the payload, have the lengths that makes, and are the only such list. -/
def Obligations.SplitRunsPartitionThePayload : Prop :=
  ∀ s : List Byte,
    (splitRuns s).length = s.count 0x00#8 + 1 ∧
    (∀ r ∈ splitRuns s, 0x00#8 ∉ r) ∧
    List.intercalate [0x00#8] (splitRuns s) = s ∧
    s.length = s.count 0x00#8 + ((splitRuns s).map List.length).sum ∧
    (∀ runs : List (List Byte), runs ≠ [] → (∀ r ∈ runs, 0x00#8 ∉ r) → List.intercalate [0x00#8] runs = s →
      runs = splitRuns s)

/-- The canonical blocks of one sub-run (spec/30_encoding.md, the table of the canonical interior): as many full blocks
`FF` + 254 literals as fit; then, if literals remain, one block of them; else, if there was no full block or a 0x00
follows, one block `01`. -/
def Obligations.RunBlocksCanonicalForm : Prop :=
  ∀ (r : List Byte) (isLast : Bool), ∃ (full : List (List Byte)) (rest : List Byte),
    r = full.flatten ++ rest ∧ (∀ c ∈ full, c.length = 254) ∧ rest.length < 254 ∧
    runBlocks r isLast =
      full.flatMap (fun c => 0xFF#8 :: c) ++
        (if rest ≠ [] then BitVec.ofNat 8 (rest.length + 1) :: rest
         else if full = [] ∨ isLast = false then [0x01#8] else [])

/-- A frame has 0x00 at its first and last index and nowhere else, and its interior is not empty (derived in
spec/40_cobs.md section 2 from the encoder's rules). -/
def Obligations.FrameHasDelimOnlyAtItsEnds : Prop :=
  ∀ p : List Byte, ∃ interior : List Byte,
    cobsEncode p = [0x00#8] ++ interior ++ [0x00#8] ∧ 0x00#8 ∉ interior ∧ interior ≠ []

/-- The exact length of a frame, and the two bounds on its expansion (derived in spec/40_cobs.md section 2;
spec/90_conflicts.md C2). -/
def Obligations.FrameLengthAndBoundedExpansion : Prop :=
  ∀ p : List Byte,
    (cobsEncode p).length =
      p.length + 2 + ((splitRuns p).dropLast.map (fun r => r.length / 254)).sum +
        max 1 ((((splitRuns p).getLastD []).length + 253) / 254) ∧
    (cobsEncode p).length ≤ p.length + max 1 ((p.length + 253) / 254) + 2 ∧
    (1 ≤ p.length → (cobsEncode p).length ≤ p.length + (p.length + 253) / 254 + 2)

/-- R61: decoding a frame's interior gives back exactly the payload, for every byte sequence. -/
def Obligations.DecodeOfEncodeIsThePayload : Prop :=
  ∀ p : List Byte, cobsDecode ((cobsEncode p).drop 1).dropLast = .ok p

/-- R93: COBS.DEC returns `Ok(payload)` or `Err(cause)` with no bytes; no state element changes, `out` among them; the next
operation executes as if the COBS.DEC had not been. -/
def Obligations.CobsDecReturnsItsDecode : Prop :=
  ∀ (x : List Byte) (s : State),
    exec (.cobsDec x) s = .next { s with result := some (.decoded (cobsDecode x)) } ∧
    (∀ c, cobsDecode x = .err c → exec (.cobsDec x) s = .next { s with result := some (.decoded (.err c)) }) ∧
    (∀ i, execAll [.cobsDec x, i] s = exec i s)

/-- COBS.DEC accepts exactly the chains of well-formed blocks that end where the interior ends, and returns the payload the
chain stands for (spec/30_encoding.md Part A; spec/40_cobs.md section 3). -/
def Obligations.DecodeAcceptsExactlyBlockChains : Prop :=
  ∀ (s p : List Byte),
    cobsDecode s = .ok p ↔
      ∃ bs : List Block, (∀ b ∈ bs, b.wf = true) ∧ s = chainBytes bs ∧ p = chainPayload bs

/-- R95: COBS.DEC reports the cause of the first offending position and never sees what stands after it: after a chain of
whole blocks, a 0x00 at a pointer position; a 0x00 among the literals the open block still owes; or the end of the input
before they are all there. -/
def Obligations.DecodeReportsTheFirstOffence : Prop :=
  ∀ s : List Byte,
    (cobsDecode s = .err .zeroPointer ↔
      ∃ (bs : List Block) (rest : List Byte), (∀ b ∈ bs, b.wf = true) ∧ s = chainBytes bs ++ 0x00#8 :: rest) ∧
    (cobsDecode s = .err .zeroLiteral ↔
      ∃ (bs : List Block) (p : Byte) (literals rest : List Byte), (∀ b ∈ bs, b.wf = true) ∧ p ≠ 0x00#8 ∧
        0x00#8 ∉ literals ∧ literals.length + 1 < p.toNat ∧
        s = chainBytes bs ++ p :: literals ++ 0x00#8 :: rest) ∧
    (cobsDecode s = .err .overrun ↔
      ∃ (bs : List Block) (p : Byte) (literals : List Byte), (∀ b ∈ bs, b.wf = true) ∧ p ≠ 0x00#8 ∧
        0x00#8 ∉ literals ∧ literals.length + 1 < p.toNat ∧ s = chainBytes bs ++ p :: literals)

/-- The byte-serial decoder computes the same function, with the same cause on error (derived in spec/40_cobs.md
section 4). -/
def Obligations.ByteSerialDecoderAgrees : Prop :=
  ∀ s : List Byte, serialDecode s = cobsDecode s

/-- The single-pass encoder computes the same frame (derived in spec/40_cobs.md section 4). -/
def Obligations.SinglePassEncoderAgrees : Prop :=
  ∀ p : List Byte, serialEncode p = cobsEncode p

/-- What COBS.DEC accepts beyond the canonical form (derived in spec/40_cobs.md section 3): the empty interior; a short
block in the middle of a stretch without 0x00, after which a 0x00 is inserted; a final block `01` after a block `FF`, which
adds nothing. -/
def Obligations.NonCanonicalInteriorsAreAccepted : Prop :=
  cobsDecode [] = .ok [] ∧
  (∀ a b : List Byte, 0x00#8 ∉ a → 0x00#8 ∉ b → a.length ≤ 253 → b.length ≤ 254 →
    cobsDecode (BitVec.ofNat 8 (a.length + 1) :: a ++ BitVec.ofNat 8 (b.length + 1) :: b) = .ok (a ++ [0x00#8] ++ b)) ∧
  (∀ a : List Byte, 0x00#8 ∉ a → a.length = 254 →
    cobsDecode (0xFF#8 :: a) = .ok a ∧ cobsDecode (0xFF#8 :: a ++ [0x01#8]) = .ok a)

/-- Passing a whole frame to COBS.DEC gives ZERO_POINTER (spec/70_reset_and_hazards.md section 3). -/
def Obligations.WholeFrameIsNoInterior : Prop :=
  ∀ (p : List Byte) (s : State),
    exec (.cobsDec (cobsEncode p)) s = .next { s with result := some (.decoded (.err .zeroPointer)) }

/-- A peer that encodes by EBC's procedure to the letter (derived in spec/70_reset_and_hazards.md section 3): its interior
decodes without error to the payload less one 0x00 for every zero-free stretch of 254k bytes, k >= 1, that a 0x00 follows;
where there is no such stretch its frame is that of COBS.ENC. -/
def Obligations.PrintedEncoderLosesDelimiters : Prop :=
  ∀ p : List Byte,
    (∃ q : List Byte, cobsDecode (printedInterior p) = .ok q ∧ q.Sublist p ∧
      q.length + printedLosses p = p.length ∧ q.filter (· ≠ 0x00#8) = p.filter (· ≠ 0x00#8)) ∧
    (printedLosses p = 0 → cobsEncode p = [0x00#8] ++ printedInterior p ++ [0x00#8])

/-! ### The Frame Assembler -/

/-- R77, R78: with TAIL_MAX = `none`, FA.CHUNK appends the chunk to `tail`, processes every stretch a delimiter ends, in
order, and keeps what follows the last delimiter; nothing else changes. The last clause: inside FA.CHUNK the only cause
that can occur is OVERRUN. -/
def Obligations.FaChunkProcessesEveryStretch : Prop :=
  (∀ (chunk : List Byte) (s : State), s.config.tailMax = none →
    exec (.faChunk chunk) s =
      .next { s with
        tail := (cutAtDelims (s.tail ++ chunk)).2
        out := s.out ++ (cutAtDelims (s.tail ++ chunk)).1.flatMap stretchEvents
        result := none }) ∧
  (∀ g : List Byte, 0x00#8 ∉ g → ∀ c, cobsDecode g = .err c → c = .overrun)

/-- With TAIL_MAX = `none` and no delimiter in `tail`, FA.CHUNK is the byte-serial FEED applied to each byte of its
operand in order (derived in spec/42_assembler.md section 3). -/
def Obligations.FaChunkIsByteSerialFeed : Prop :=
  ∀ (chunk : List Byte) (s : State), s.config.tailMax = none → 0x00#8 ∉ s.tail →
    exec (.faChunk chunk) s = .next { chunk.foldl (fun t b => feed b t) s with result := none }

/-- Where the chunk boundaries fall does not matter, for every TAIL_MAX and from every state: a stream fed in any chunks
leaves the state that it leaves fed whole (derived in spec/42_assembler.md sections 3 and 4). The spec derives this for
the states the hardware can be in, whose `tail` has no delimiter; that it holds from every other state too rests on the
model's reading of FA.CHUNK there (notes/assumptions/9.md, DEDUCED). -/
def Obligations.ChunkBoundariesDoNotMatter : Prop :=
  ∀ (chunks : List (List Byte)) (s : State), chunks ≠ [] →
    execAll (faChunks chunks) s = exec (.faChunk chunks.flatten) s

/-- `FA.BYTES` leaves the same `tail`, `drop` and `out` as the FA.CHUNK of the same bytes, from every state whose `tail`
has no delimiter (spec/30_encoding.md Part C). -/
def Obligations.FaBytesEqualsFaChunk : Prop :=
  ∀ (bs : List Byte) (s : State), 0x00#8 ∉ s.tail → ∃ t u,
    execAll (faBytes bs) s = .next t ∧ exec (.faChunk bs) s = .next u ∧ { t with result := none } = u

/-- R83: FA.CHUNK with TAIL_MAX = N, byte by byte: FEED_N on each byte in index order. A delimiter ends dropping, or ends
the stretch in `tail`; any other byte is discarded while dropping, overflows a full `tail`, or is appended. -/
def Obligations.FaChunkBoundedByteByByte : Prop :=
  ∀ (n : Nat) (s : State), s.config.tailMax = some n →
    exec (.faChunk []) s = .next { s with result := none } ∧
    (∀ (b : Byte) (chunk : List Byte),
      execAll [.faChunk [b], .faChunk chunk] s = exec (.faChunk (b :: chunk)) s) ∧
    (∀ b : Byte,
      exec (.faChunk [b]) s = .next
        (if b = 0x00#8 then
          if s.drop = true then { s with drop := false, result := none }
          else { s with tail := [], out := s.out ++ stretchEvents s.tail, result := none }
        else if s.drop = true then { s with result := none }
        else if s.tail.length = n then
          { s with tail := [], drop := true, out := s.out ++ [.frameError .frameTooLong], result := none }
        else { s with tail := s.tail ++ [b], result := none }))

/-- With TAIL_MAX = N, stretch by stretch (derived in spec/42_assembler.md section 4): a stretch of up to N bytes is processed,
a longer one gives one FRAME_TOO_LONG event and nothing else; an open stretch of more than N bytes has given its event and
is being dropped; a stretch that was being dropped ends at the first delimiter without an event. -/
def Obligations.FaChunkBoundedByStretches : Prop :=
  ∀ (n : Nat) (chunk : List Byte) (s : State),
    s.config.tailMax = some n → 0x00#8 ∉ s.tail → s.tail.length ≤ n → (s.drop = true → s.tail = []) →
    let gs := (cutAtDelims (s.tail ++ chunk)).1
    let g := (cutAtDelims (s.tail ++ chunk)).2
    let opened (ended : List (List Byte)) : State :=
      { s with
        tail := if g.length ≤ n then g else []
        drop := decide (n < g.length)
        out := s.out ++ ended.flatMap (stretchEventsBounded n) ++
          (if n < g.length then [.frameError .frameTooLong] else [])
        result := none }
    (s.drop = false → exec (.faChunk chunk) s = .next (opened gs)) ∧
    (s.drop = true → gs = [] → exec (.faChunk chunk) s = .next { s with result := none }) ∧
    (s.drop = true → gs ≠ [] → exec (.faChunk chunk) s = .next (opened gs.tail))

/-- A stream with no stretch longer than N has the same effect with TAIL_MAX = N as with TAIL_MAX = `none`
(spec/42_assembler.md sections 2 and 4). -/
def Obligations.BoundedAgreesOnShortStretches : Prop :=
  ∀ (n : Nat) (chunk : List Byte) (s : State),
    s.config.tailMax = some n → s.drop = false → 0x00#8 ∉ s.tail →
    (∀ g ∈ (cutAtDelims (s.tail ++ chunk)).1, g.length ≤ n) → (cutAtDelims (s.tail ++ chunk)).2.length ≤ n →
    ∃ t u, exec (.faChunk chunk) s = .next t ∧
      exec (.faChunk chunk) { s with config := { s.config with tailMax := none } } = .next u ∧
      t = { u with config := s.config }

/-- FA.CHUNK always completes, returns nothing, and changes at most `tail`, `drop` and `out`, which it only appends to. -/
def Obligations.FaChunkFrame : Prop :=
  ∀ (chunk : List Byte) (s : State), ∃ (tail : List Byte) (drop : Bool) (es : List Event),
    exec (.faChunk chunk) s =
      .next { s with tail := tail, drop := drop, out := s.out ++ es, result := none } ∧
    (s.config.tailMax = none → drop = s.drop) ∧
    (∀ p, Event.payload p ∈ es → p ≠ [])

/-- The edge cases EBC says must be preserved, with TAIL_MAX = `none` (spec/42_assembler.md section 3): a chunk without a
delimiter only grows `tail`; a delimiter at the front of an empty `tail` is skipped; an empty chunk changes nothing; the
first frame after reset needs no leading delimiter. -/
def Obligations.AssemblerEdgeCases : Prop :=
  ∀ s : State, s.config.tailMax = none →
    (∀ chunk, 0x00#8 ∉ s.tail → 0x00#8 ∉ chunk →
      exec (.faChunk chunk) s = .next { s with tail := s.tail ++ chunk, result := none }) ∧
    (∀ chunk, s.tail = [] → exec (.faChunk (0x00#8 :: chunk)) s = exec (.faChunk chunk) s) ∧
    (0x00#8 ∉ s.tail → exec (.faChunk []) s = .next { s with result := none }) ∧
    (∀ p, p ≠ [] →
      exec (.faChunk ((cobsEncode p).drop 1)) s.resetEvent = .next { s.resetEvent with out := [.payload p], result := none })

/-- R94: a delimited stretch is removed from `tail` with its delimiter, contributes its own event at its place and nothing
else, and FA.CHUNK goes on with the rest: a stretch that fails to decode gives one `FrameError(cause)` and no byte of it is
emitted; the bytes after it are handled as from an empty `tail`, and the operation ends normally and returns nothing. -/
def Obligations.BadFrameIsIsolated : Prop :=
  ∀ (g rest : List Byte) (s : State),
    0x00#8 ∉ s.tail ++ g → s.drop = false → (∀ n, s.config.tailMax = some n → (s.tail ++ g).length ≤ n) →
    exec (.faChunk (g ++ 0x00#8 :: rest)) s =
      exec (.faChunk rest) { s with tail := [], out := s.out ++ stretchEvents (s.tail ++ g) } ∧
    (∀ c, cobsDecode (s.tail ++ g) = .err c →
      exec (.faChunk (g ++ 0x00#8 :: rest)) s =
        exec (.faChunk rest) { s with tail := [], out := s.out ++ [.frameError (.malformed c)] } ∧
      ∃ t es, exec (.faChunk (g ++ 0x00#8 :: rest)) s = .next t ∧ t.result = none ∧
        t.out = s.out ++ [.frameError (.malformed c)] ++ es)

/-- Streaming equivalence (derived in spec/42_assembler.md section 5; spec/90_conflicts.md C4): however the frame of a
payload is cut into chunks, feeding them appends exactly one event, that payload, and leaves `tail` empty; for the empty
payload it appends none. -/
def Obligations.StreamingEquivalence : Prop :=
  ∀ (p : List Byte) (chunks : List (List Byte)) (s : State),
    chunks.flatten = cobsEncode p → s.tail = [] → s.drop = false →
    (∀ n, s.config.tailMax = some n → (cobsEncode p).length - 2 ≤ n) →
    execAll (faChunks chunks) s =
      .next { s with out := s.out ++ (if p = [] then [] else [.payload p]), result := none }

/-- With TAIL_MAX = `none`, after any program from reset the state of the Frame Assembler is a function of the concatenation
of the FA.CHUNK operands alone (derived in spec/42_assembler.md section 5). -/
def Obligations.AssemblerStateIsAFunctionOfTheStream : Prop :=
  ∀ (is : List Instr) (s : State), s.config.tailMax = none → ∃ t,
    execAll is s.resetEvent = .next t ∧
    t.tail = (cutAtDelims (is.flatMap fedBytes)).2 ∧ t.drop = false ∧
    t.out = (cutAtDelims (is.flatMap fedBytes)).1.flatMap stretchEvents ∧
    (∀ c, Event.frameError c ∈ t.out → c = .malformed .overrun)

/-- The Frame Assembler never emits an empty payload: the frame of the empty payload gives no event (spec/42_assembler.md
section 2). -/
def Obligations.EmptyPayloadGivesNoEvent : Prop :=
  ∀ s : State, s.tail = [] → s.drop = false → s.config.wf = true →
    exec (.faChunk (cobsEncode [])) s = .next { s with result := none } ∧
    exec (.faChunk [0x00#8, 0x01#8, 0x00#8]) s = .next { s with result := none }

/-- Acceptance of a frame does not depend on the checksum: FA.CHUNK does the same whatever `crc` is
(spec/42_assembler.md section 5; spec/90_conflicts.md C7). -/
def Obligations.AssemblerIgnoresTheChecksum : Prop :=
  ∀ (chunk : List Byte) (s : State) (v : Word), ∃ t,
    exec (.faChunk chunk) s = .next t ∧ exec (.faChunk chunk) { s with crc := v } = .next { t with crc := v }

/-! ### The whole machine -/

/-- Every operation may be issued in every state and completes (spec/60_exceptions.md section 4;
spec/70_reset_and_hazards.md sections 1 and 4). -/
def Obligations.EveryOperationCompletes : Prop :=
  ∀ (i : Instr) (s : State), ∃ t, exec i s = .next t ∧ t.beats = s.beats

/-- Operations of different units commute: the same final state and the same results in either order (derived in
spec/10_state.md section 6). The model's own `result` field holds the last result only, so the two final states are
compared without it and the results operation by operation (notes/assumptions/4.md). -/
def Obligations.UnitsCommute : Prop :=
  ∀ (i j : Instr) (s : State),
    (isChecksumOp i ≠ isChecksumOp j ∨ isAssemblerOp i ≠ isAssemblerOp j) →
    ∃ a b t u, exec i s = .next a ∧ exec j a = .next b ∧ exec j s = .next t ∧ exec i t = .next u ∧
      { b with result := none } = { u with result := none } ∧ a.result = u.result ∧ b.result = t.result

/-- The log `out` is append-only: FA.CHUNK appends at its end, no other operation writes it, reset empties it; no payload in
it is empty (spec/10_state.md section 5). -/
def Obligations.OutputLogIsAppendOnly : Prop :=
  (∀ (i : Instr) (s : State), ∃ t es, exec i s = .next t ∧ t.out = s.out ++ es ∧
    (∀ p, Event.payload p ∈ es → p ≠ []) ∧ (isAssemblerOp i = false → es = [])) ∧
  (∀ s : State, s.resetEvent.out = [])

/-- No step changes the parameters of the instance (spec/10_state.md section 7). -/
def Obligations.ParametersNeverChange : Prop :=
  ∀ s t : State, step s = .next t → t.config = s.config

/-- The invariant holds right after reset, for every legal choice of the parameters. -/
def Obligations.InvariantHoldsAtReset : Prop :=
  Inv State.reset ∧ ∀ s : State, s.config.wf = true → Inv s.resetEvent

/-- Every step keeps the invariant: `tail` has no delimiter and at most TAIL_MAX bytes, `drop` = 1 only with a cap and an
empty `tail`, no empty payload in `out`, and no error in it but OVERRUN and, with a cap, FRAME_TOO_LONG (derived in
spec/10_state.md section 3; spec/42_assembler.md sections 2 to 4). -/
def Obligations.StepKeepsTheInvariant : Prop :=
  ∀ s t : State, Inv s → step s = .next t → Inv t

/-! ### Commands -/

/-- A few words of the programs of spec/95_test_vectors.md section 6, and a reserved one, decode to what they stand for. -/
def Obligations.SampleBeatsDecode : Prop :=
  decode [0x0300#16] = .op .crcReset [] ∧ decode [0x1131#16, 0x2300#16] = .op (.crcStep 0x31#8) [0x2300#16] ∧
  decode [0x2300#16] = .op .crcRead [] ∧ decode [0x3300#16] = .op .crcFinish [] ∧
  decode [0x4011#16, 0x4000#16, 0x4122#16] = .op (.cobsEnc [0x11#8, 0x00#8, 0x22#8]) [] ∧
  decode [0x5002#16, 0x5011#16, 0x5002#16, 0x5122#16] = .op (.cobsDec [0x02#8, 0x11#8, 0x02#8, 0x22#8]) [] ∧
  decode [0x6300#16] = .op (.faChunk []) [] ∧ decode [0x7300#16] = .illegal .reservedOp []

/-- Decoding the beats of an operation gives the operation back, with every operand at every value, and leaves the beats
after it. -/
def Obligations.DecodeOfEncodeIsTheInstruction : Prop :=
  ∀ (i : Instr) (rest : List Word), decode (encode i ++ rest) = .op i rest

/-- The other direction: whatever decodes to an operation is the one encoding of it, followed by the beats left. -/
def Obligations.OnlyItsEncodingDecodesToIt : Prop :=
  ∀ (ws : List Word) (i : Instr) (rest : List Word), decode ws = .op i rest → ws = encode i ++ rest

/-- Every legal sequence of beats spells exactly one operation (spec/30_encoding.md Part B), legality as WellFormed.lean
states it, apart from the decoder. -/
def Obligations.LegalBeatsSpellExactlyOneOperation : Prop :=
  ∀ ws : List Word, beatsWf (ws.map Beat.ofWord) = true →
    (∃ i, encode i = ws ∧ decode ws = .op i []) ∧ ∀ i j, encode i = ws → encode j = ws → i = j

/-- A step runs the operation its beats decode to: it takes the operation's beats, leaves the ones after them, executes the
operation, and always goes on. -/
def Obligations.StepRunsTheDecodedOperation : Prop :=
  ∀ (s : State) (i : Instr) (rest : List Word), decode s.beats = .op i rest →
    step s = exec i { s with beats := rest } ∧ ∃ t, step s = .next t ∧ t.beats = rest

/-- Beats before the final one change no state: while the port holds no beat, or legal beats of an operand that has not had
its final beat, a step leaves the state as it is (spec/30_encoding.md Part B). -/
def Obligations.StepWaitsForTheFinalBeat : Prop :=
  ∀ s : State, openOperand (s.beats.map Beat.ofWord) = true → step s = .next s

/-- An illegal beat is refused by name, as the first beat of an operation or inside an operand; the beat and the unfinished
operand it interrupts leave the port and have no other effect (spec/30_encoding.md Part B). -/
def Obligations.IllegalBeatIsRefused : Prop :=
  ∀ (before : List Word) (w : Word) (rest : List Word) (s : State),
    s.beats = before ++ w :: rest → openOperand (before.map Beat.ofWord) = true →
    ((Beat.ofWord w).wf = false ∨
      ∃ p ∈ before.getLast?, (Beat.ofWord p).mayFollow (Beat.ofWord w) = false) →
    (∃ why, step s = .refused (.illegalBeat why)) ∧ s.discardRefused = { s with beats := rest }

/-- A step stops on nothing but an illegal beat. Both halves are the model's readings, marked DEDUCED: that a refused beat
stops a step (notes/assumptions/5.md; spec/60_exceptions.md section 1: "A model refuses such a command at its boundary"), and
that nothing else can stop one, the type Fault being empty (notes/assumptions/8.md; the same section: "No condition in this
core is fatal to the process"). -/
def Obligations.OnlyAnIllegalBeatStops : Prop :=
  ∀ s : State, (∃ t, step s = .next t) ∨
    ∃ why rest, decode s.beats = .illegal why rest ∧ step s = .refused (.illegalBeat why)

/-- The beats of a program, presented in order, run as the program: as many steps as it has operations, each in the state the
one before it left, and the beats after it untouched (spec/20_memory.md section 5). -/
def Obligations.PresentedProgramRunsInOrder : Prop :=
  ∀ (is : List Instr) (after : List Word) (s : State),
    Host.Core.run Sys2Proof.core is.length { s with beats := encodeAll is ++ after } =
      execAll is { s with beats := after }

/-- A word of the opcode table, placed at the front of the port, is what the next step executes. -/
def Obligations.PlacedTableWordIsExecuted : Prop :=
  ∀ (s : State) (nbits w : Nat) (i : Instr), decodeTableWord nbits w = some i →
    step (s.withFetchWord nbits w) = exec i s

/-- With TAIL_MAX = `none`, where the Frame Assembler stands is a function of the stream fed so far, and every operation and
every step keeps it so: from the state a stream leaves, an operation leaves the state of that stream followed by the bytes it
feeds, and a step the state of that stream followed by the bytes of the operation it takes (derived in
spec/42_assembler.md section 5; the port is the model's, notes/assumptions/3.md). -/
def Obligations.EveryStepFollowsTheStream : Prop :=
  (∀ (stream : List Byte) (i : Instr) (s : State), FollowsStream stream s →
    ∃ t, exec i s = .next t ∧ FollowsStream (stream ++ fedBytes i) t) ∧
  (∀ (stream : List Byte) (s t : State), FollowsStream stream s → step s = .next t →
    FollowsStream (stream ++ nextFed s) t)
end

