-- ==== Sys2Proof/Laws/Sequences.lean ====
section
/-! SUPPORT. The sequence primitives (spec/20_memory.md R34): what `find` answers, and how the codec's functions unfold one
step at a time. -/

namespace Sys2Proof.Laws

open Sys2Proof.Machine

/-- `find` answers `none` exactly when no byte equals the value. -/
theorem findByte_eq_none (v : Byte) (s : List Byte) : findByte v s = none ↔ v ∉ s := by
  induction s with
  | nil => simp [findByte]
  | cons b s ih =>
    by_cases h : b = v
    · simp [findByte, h]
    · simp [findByte, h, ih, Ne.symm h]

/-- An index `find` answers splits the sequence at the first occurrence. -/
theorem findByte_eq_some (v : Byte) (s : List Byte) (i : Nat) (h : findByte v s = some i) :
    s = s.take i ++ v :: s.drop (i + 1) ∧ v ∉ s.take i := by
  induction s generalizing i with
  | nil => simp [findByte] at h
  | cons b s ih =>
    by_cases hb : b = v
    · simp only [findByte, hb, if_true, Option.some.injEq] at h
      subst h
      simp [hb]
    · simp only [findByte, hb, if_false, Option.map_eq_some_iff] at h
      obtain ⟨j, hj, rfl⟩ := h
      obtain ⟨h1, h2⟩ := ih j hj
      exact ⟨by simpa using h1, by simpa [Ne.symm hb] using h2⟩

/-- The index of the first occurrence after a stretch without the value. -/
theorem findByte_append (v : Byte) (g rest : List Byte) (h : v ∉ g) :
    findByte v (g ++ v :: rest) = some g.length := by
  induction g with
  | nil => simp [findByte]
  | cons b g ih =>
    obtain ⟨hb, hg⟩ := not_or.mp (fun hm => h (List.mem_cons.mpr hm))
    simp [findByte, Ne.symm hb, ih hg]

@[simp] theorem countByte_append (v : Byte) (s t : List Byte) :
    countByte v (s ++ t) = countByte v s + countByte v t := by
  induction s with
  | nil => simp [countByte]
  | cons b s ih =>
    simp only [List.cons_append, countByte, ih]
    split <;> omega

theorem countByte_eq_zero (v : Byte) (s : List Byte) : countByte v s = 0 ↔ v ∉ s := by
  induction s with
  | nil => simp [countByte]
  | cons b s ih =>
    by_cases h : b = v
    · simp [countByte, h]
    · simp [countByte, h, ih, Ne.symm h]

theorem splitRuns_ne_nil (s : List Byte) : splitRuns s ≠ [] := by
  cases s with
  | nil => simp [splitRuns]
  | cons b s =>
    simp only [splitRuns]
    split
    · simp
    · split <;> simp

/-- A stream without a delimiter is one open stretch. -/
theorem cutAtDelims_of_not_mem (s : List Byte) (h : delim ∉ s) : cutAtDelims s = ([], s) := by
  induction s with
  | nil => rfl
  | cons b s ih =>
    obtain ⟨hb, hs⟩ := not_or.mp (fun hm => h (List.mem_cons.mpr hm))
    simp [cutAtDelims, ih hs, Ne.symm hb]

/-- A stream that begins with a delimited stretch. -/
theorem cutAtDelims_append (g rest : List Byte) (h : delim ∉ g) :
    cutAtDelims (g ++ delim :: rest) = (g :: (cutAtDelims rest).1, (cutAtDelims rest).2) := by
  induction g with
  | nil => simp [cutAtDelims]
  | cons b g ih =>
    obtain ⟨hb, hg⟩ := not_or.mp (fun hm => h (List.mem_cons.mpr hm))
    simp [cutAtDelims, ih hg, Ne.symm hb]

/-- No stretch of a cut holds a delimiter. -/
theorem cutAtDelims_free (s : List Byte) :
    (∀ g ∈ (cutAtDelims s).1, delim ∉ g) ∧ delim ∉ (cutAtDelims s).2 := by
  induction s with
  | nil => simp [cutAtDelims]
  | cons b s ih =>
    obtain ⟨h1, h2⟩ := ih
    by_cases hb : b = delim
    · simp only [cutAtDelims, hb, if_true]
      exact ⟨by simpa using h1, h2⟩
    · simp only [cutAtDelims, hb, if_false]
      split
      · simpa [Ne.symm hb] using h2
      · rename_i g gs heq
        rw [heq] at h1
        simp only [List.mem_cons, forall_eq_or_imp] at h1
        exact ⟨by simpa [Ne.symm hb] using h1, h2⟩

/-- A byte in front of a stream joins the first stretch, ended or open. -/
theorem cutAtDelims_cons (b : Byte) (s : List Byte) (h : b ≠ delim) :
    cutAtDelims (b :: s) =
      match (cutAtDelims s).1 with
      | [] => ([], b :: (cutAtDelims s).2)
      | g :: gs => ((b :: g) :: gs, (cutAtDelims s).2) :=
  (if_neg h : (if b = delim then _ else _) = _)

/-- Cutting a stream that goes on: the stretches already ended stay, and the open one goes on (R86). -/
theorem cutAtDelims_continue (s t : List Byte) :
    cutAtDelims (s ++ t) =
      ((cutAtDelims s).1 ++ (cutAtDelims ((cutAtDelims s).2 ++ t)).1, (cutAtDelims ((cutAtDelims s).2 ++ t)).2) := by
  induction s with
  | nil => simp [cutAtDelims]
  | cons b s ih =>
    by_cases hb : b = delim
    · simp [cutAtDelims, hb, ih]
    · rw [List.cons_append, cutAtDelims_cons b (s ++ t) hb, cutAtDelims_cons b s hb, ih]
      cases (cutAtDelims s).1 with
      | nil => simp [cutAtDelims_cons b _ hb]
      | cons g gs => rfl

/-- The loop of COBS.DEC at the end of the input. -/
@[simp] theorem decodeBlocks_nil (fuel : Nat) : decodeBlocks fuel [] = .ok [] := by
  cases fuel <;> rfl

/-- The loop of COBS.DEC does not depend on its bound once that reaches the length of the input. -/
theorem decodeBlocks_fuel (fuel : Nat) (s : List Byte) (h : s.length ≤ fuel) :
    decodeBlocks fuel s = decodeBlocks s.length s := by
  induction fuel using Nat.strong_induction_on generalizing s with
  | _ fuel ih =>
    match fuel, s, h with
    | 0, [], _ => rfl
    | n + 1, [], _ => rfl
    | n + 1, p :: s, h =>
      have hs : s.length ≤ n := by simpa using h
      have hd : (s.drop (literalCount p)).length ≤ s.length := by simp
      have h1 := ih n (by omega) (s.drop (literalCount p)) (by omega)
      have h2 := ih s.length (by omega) (s.drop (literalCount p)) hd
      simp only [List.length_cons, decodeBlocks, h1, h2]

/-- One round of COBS.DEC: a whole block and what follows it. -/
theorem cobsDecode_block (p : Byte) (literals after : List Byte) (hp : p ≠ delim) (hl : delim ∉ literals)
    (hn : literals.length = literalCount p) :
    cobsDecode (p :: literals ++ after) =
      prependPayload (literals ++ if impliesDelim p && !after.isEmpty then [delim] else []) (cobsDecode after) := by
  have h : decodeBlocks (literals.length + after.length) after = decodeBlocks after.length after :=
    decodeBlocks_fuel _ _ (by omega)
  simp only [cobsDecode, List.cons_append, List.length_cons, decodeBlocks, hp, if_false]
  simp [← hn, hl, h]

end Sys2Proof.Laws
end

