-- ==== Sys2Proof/Laws/State.lean ====
section
/-! SUPPORT. One lemma per field per update of State, each true by rfl, so that no later proof unfolds a record update. -/

namespace Sys2Proof.Laws

open Sys2Proof.Machine

@[simp] theorem setCrc_config (v : Word) (s : State) : (s.setCrc v).config = s.config := rfl
@[simp] theorem setCrc_crc (v : Word) (s : State) : (s.setCrc v).crc = v := rfl
@[simp] theorem setCrc_tail (v : Word) (s : State) : (s.setCrc v).tail = s.tail := rfl
@[simp] theorem setCrc_drop (v : Word) (s : State) : (s.setCrc v).drop = s.drop := rfl
@[simp] theorem setCrc_out (v : Word) (s : State) : (s.setCrc v).out = s.out := rfl
@[simp] theorem setCrc_beats (v : Word) (s : State) : (s.setCrc v).beats = s.beats := rfl
@[simp] theorem setCrc_result (v : Word) (s : State) : (s.setCrc v).result = s.result := rfl

@[simp] theorem setTail_config (v : List Byte) (s : State) : (s.setTail v).config = s.config := rfl
@[simp] theorem setTail_crc (v : List Byte) (s : State) : (s.setTail v).crc = s.crc := rfl
@[simp] theorem setTail_tail (v : List Byte) (s : State) : (s.setTail v).tail = v := rfl
@[simp] theorem setTail_drop (v : List Byte) (s : State) : (s.setTail v).drop = s.drop := rfl
@[simp] theorem setTail_out (v : List Byte) (s : State) : (s.setTail v).out = s.out := rfl
@[simp] theorem setTail_beats (v : List Byte) (s : State) : (s.setTail v).beats = s.beats := rfl
@[simp] theorem setTail_result (v : List Byte) (s : State) : (s.setTail v).result = s.result := rfl

@[simp] theorem setDrop_config (v : Bool) (s : State) : (s.setDrop v).config = s.config := rfl
@[simp] theorem setDrop_crc (v : Bool) (s : State) : (s.setDrop v).crc = s.crc := rfl
@[simp] theorem setDrop_tail (v : Bool) (s : State) : (s.setDrop v).tail = s.tail := rfl
@[simp] theorem setDrop_drop (v : Bool) (s : State) : (s.setDrop v).drop = v := rfl
@[simp] theorem setDrop_out (v : Bool) (s : State) : (s.setDrop v).out = s.out := rfl
@[simp] theorem setDrop_beats (v : Bool) (s : State) : (s.setDrop v).beats = s.beats := rfl
@[simp] theorem setDrop_result (v : Bool) (s : State) : (s.setDrop v).result = s.result := rfl

@[simp] theorem emit_config (e : Event) (s : State) : (s.emit e).config = s.config := rfl
@[simp] theorem emit_crc (e : Event) (s : State) : (s.emit e).crc = s.crc := rfl
@[simp] theorem emit_tail (e : Event) (s : State) : (s.emit e).tail = s.tail := rfl
@[simp] theorem emit_drop (e : Event) (s : State) : (s.emit e).drop = s.drop := rfl
@[simp] theorem emit_out (e : Event) (s : State) : (s.emit e).out = s.out ++ [e] := rfl
@[simp] theorem emit_beats (e : Event) (s : State) : (s.emit e).beats = s.beats := rfl
@[simp] theorem emit_result (e : Event) (s : State) : (s.emit e).result = s.result := rfl

@[simp] theorem returns_config (r : Option Result) (s : State) : (s.returns r).config = s.config := rfl
@[simp] theorem returns_crc (r : Option Result) (s : State) : (s.returns r).crc = s.crc := rfl
@[simp] theorem returns_tail (r : Option Result) (s : State) : (s.returns r).tail = s.tail := rfl
@[simp] theorem returns_drop (r : Option Result) (s : State) : (s.returns r).drop = s.drop := rfl
@[simp] theorem returns_out (r : Option Result) (s : State) : (s.returns r).out = s.out := rfl
@[simp] theorem returns_beats (r : Option Result) (s : State) : (s.returns r).beats = s.beats := rfl
@[simp] theorem returns_result (r : Option Result) (s : State) : (s.returns r).result = r := rfl

@[simp] theorem setBeats_config (ws : List Word) (s : State) : (s.setBeats ws).config = s.config := rfl
@[simp] theorem setBeats_crc (ws : List Word) (s : State) : (s.setBeats ws).crc = s.crc := rfl
@[simp] theorem setBeats_tail (ws : List Word) (s : State) : (s.setBeats ws).tail = s.tail := rfl
@[simp] theorem setBeats_drop (ws : List Word) (s : State) : (s.setBeats ws).drop = s.drop := rfl
@[simp] theorem setBeats_out (ws : List Word) (s : State) : (s.setBeats ws).out = s.out := rfl
@[simp] theorem setBeats_beats (ws : List Word) (s : State) : (s.setBeats ws).beats = ws := rfl
@[simp] theorem setBeats_result (ws : List Word) (s : State) : (s.setBeats ws).result = s.result := rfl

@[simp] theorem reportError_config (code : ErrorCode) (s : State) : (s.reportError code).config = s.config := rfl
@[simp] theorem reportError_crc (code : ErrorCode) (s : State) : (s.reportError code).crc = s.crc := rfl
@[simp] theorem reportError_tail (code : ErrorCode) (s : State) : (s.reportError code).tail = s.tail := rfl
@[simp] theorem reportError_drop (code : ErrorCode) (s : State) : (s.reportError code).drop = s.drop := rfl
@[simp] theorem reportError_out (code : ErrorCode) (s : State) : (s.reportError code).out = s.out ++ [.frameError code] := rfl
@[simp] theorem reportError_beats (code : ErrorCode) (s : State) : (s.reportError code).beats = s.beats := rfl
@[simp] theorem reportError_result (code : ErrorCode) (s : State) : (s.reportError code).result = s.result := rfl

@[simp] theorem present_config (ws : List Word) (s : State) : (s.present ws).config = s.config := rfl
@[simp] theorem present_crc (ws : List Word) (s : State) : (s.present ws).crc = s.crc := rfl
@[simp] theorem present_tail (ws : List Word) (s : State) : (s.present ws).tail = s.tail := rfl
@[simp] theorem present_drop (ws : List Word) (s : State) : (s.present ws).drop = s.drop := rfl
@[simp] theorem present_out (ws : List Word) (s : State) : (s.present ws).out = s.out := rfl
@[simp] theorem present_beats (ws : List Word) (s : State) : (s.present ws).beats = s.beats ++ ws := rfl
@[simp] theorem present_result (ws : List Word) (s : State) : (s.present ws).result = s.result := rfl

@[simp] theorem resetEvent_config (s : State) : s.resetEvent.config = s.config := rfl
@[simp] theorem resetEvent_crc (s : State) : s.resetEvent.crc = s.config.crcInit := rfl
@[simp] theorem resetEvent_tail (s : State) : s.resetEvent.tail = [] := rfl
@[simp] theorem resetEvent_drop (s : State) : s.resetEvent.drop = false := rfl
@[simp] theorem resetEvent_out (s : State) : s.resetEvent.out = [] := rfl
@[simp] theorem resetEvent_beats (s : State) : s.resetEvent.beats = [] := rfl
@[simp] theorem resetEvent_result (s : State) : s.resetEvent.result = none := rfl

end Sys2Proof.Laws
end

