-- ==== Sys2Proof/Laws/Assembler.lean ====
section
/-! SUPPORT. What the shared operations of the Frame Assembler do, said once each: `process` appends the events of its stretch;
the two forms of FA.CHUNK change `tail`, `drop` and `out` only. -/

namespace Sys2Proof.Laws

open Sys2Proof.Machine

/-- PROCESS (R78) appends the events of the stretch and does nothing else. -/
theorem process_eq (g : List Byte) (s : State) : process g s = { s with out := s.out ++ stretchEvents g } := by
  cases g with
  | nil => simp [process, stretchEvents]
  | cons b g =>
    simp only [process, stretchEvents, List.length_cons]
    cases h : cobsDecode (b :: g) with
    | err c => simp [State.reportError, State.emit]
    | ok p => cases p <;> simp [State.emit]

/-- No payload among the events of a stretch is empty (R79). -/
theorem payload_mem_stretchEvents (g p : List Byte) (h : Event.payload p ∈ stretchEvents g) : p ≠ [] := by
  unfold stretchEvents at h
  split at h
  · simp at h
  · split at h <;> simp at h
    simp [h]

/-- A state changed at most in `tail`, in `drop` and at the end of `out`, with no empty payload appended. -/
def AssemblerChange (s t : State) : Prop :=
  ∃ (tail : List Byte) (drop : Bool) (es : List Event),
    t = { s with tail := tail, drop := drop, out := s.out ++ es } ∧ ∀ p, Event.payload p ∈ es → p ≠ []

theorem assemblerChange_refl (s : State) : AssemblerChange s s := ⟨s.tail, s.drop, [], by simp, by simp⟩

theorem assemblerChange_trans {s t u : State} (h₁ : AssemblerChange s t) (h₂ : AssemblerChange t u) :
    AssemblerChange s u := by
  obtain ⟨_, _, es, rfl, he⟩ := h₁
  obtain ⟨tl, d, fs, rfl, hf⟩ := h₂
  refine ⟨tl, d, es ++ fs, by simp, fun p hp => ?_⟩
  exact (List.mem_append.mp hp).elim (he p) (hf p)

theorem process_change (g : List Byte) (s : State) : AssemblerChange s (process g s) :=
  ⟨s.tail, s.drop, stretchEvents g, process_eq g s, payload_mem_stretchEvents g⟩

theorem setTail_change (v : List Byte) (s : State) : AssemblerChange s (s.setTail v) :=
  ⟨v, s.drop, [], by simp [State.setTail], by simp⟩

theorem setDrop_change (v : Bool) (s : State) : AssemblerChange s (s.setDrop v) :=
  ⟨s.tail, v, [], by simp [State.setDrop], by simp⟩

theorem reportError_change (c : ErrorCode) (s : State) : AssemblerChange s (s.reportError c) :=
  ⟨s.tail, s.drop, [.frameError c], by simp [State.reportError, State.emit], by simp⟩

theorem extractLoop_change (rounds : Nat) (s : State) : AssemblerChange s (extractLoop rounds s) := by
  induction rounds generalizing s with
  | zero => exact assemblerChange_refl s
  | succ n ih =>
    simp only [extractLoop]
    split
    · exact assemblerChange_refl s
    · exact assemblerChange_trans (assemblerChange_trans (setTail_change _ s) (process_change _ _)) (ih _)

theorem feedBounded_change (n : Nat) (b : Byte) (s : State) : AssemblerChange s (feedBounded n b s) := by
  simp only [feedBounded]
  split
  · split
    · exact setDrop_change _ s
    · exact assemblerChange_trans (setTail_change _ s) (process_change _ _)
  · split
    · exact assemblerChange_refl s
    · split
      · exact assemblerChange_trans (assemblerChange_trans (setTail_change _ s) (setDrop_change _ _))
          (reportError_change _ _)
      · exact setTail_change _ s

@[simp] theorem chunkBounded_nil (n : Nat) (s : State) : chunkBounded n [] s = s := rfl

@[simp] theorem chunkBounded_cons (n : Nat) (b : Byte) (c : List Byte) (s : State) :
    chunkBounded n (b :: c) s = chunkBounded n c (feedBounded n b s) := rfl

/-- With TAIL_MAX = N the operation is byte by byte, so a chunk may be cut anywhere (R83). -/
theorem chunkBounded_append (n : Nat) (c d : List Byte) (s : State) :
    chunkBounded n (c ++ d) s = chunkBounded n d (chunkBounded n c s) := by
  simp [chunkBounded]

theorem chunkBounded_change (n : Nat) (c : List Byte) (s : State) : AssemblerChange s (chunkBounded n c s) := by
  induction c generalizing s with
  | nil => exact assemblerChange_refl s
  | cons b c ih => exact assemblerChange_trans (feedBounded_change n b s) (ih _)

/-- FA.CHUNK's effect touches only `tail`, `drop` and the end of `out`, for every TAIL_MAX (R16, R76). -/
theorem assemble_change (c : List Byte) (s : State) : AssemblerChange s (assemble c s) := by
  simp only [assemble]
  split
  · exact assemblerChange_trans (setTail_change _ s) (extractLoop_change _ _)
  · exact chunkBounded_change _ c s

/-- FEED_N on a byte that is no delimiter and finds room (R83). -/
theorem feedBounded_append (n : Nat) (b : Byte) (s : State) (hb : b ≠ delim) (hd : s.drop = false)
    (hn : s.tail.length ≠ n) : feedBounded n b s = s.setTail (s.tail ++ [b]) := by
  simp [feedBounded, hb, hd, hn]

/-- FEED_N on the byte that overflows a full buffer (R83, R91). -/
theorem feedBounded_overflow (n : Nat) (b : Byte) (s : State) (hb : b ≠ delim) (hd : s.drop = false)
    (hn : s.tail.length = n) :
    feedBounded n b s = { s with tail := [], drop := true, out := s.out ++ [.frameError .frameTooLong] } := by
  simp [feedBounded, hb, hd, hn, State.setTail, State.setDrop, State.reportError, State.emit]

/-- FEED_N on the delimiter that ends a stretch (R83). -/
theorem feedBounded_delim (n : Nat) (s : State) (hd : s.drop = false) :
    feedBounded n delim s = { s with tail := [], out := s.out ++ stretchEvents s.tail } := by
  simp [feedBounded, hd, process_eq, State.setTail]

end Sys2Proof.Laws
end

