-- ==== Sys2Proof/Laws/Commands.lean ====
section
/-! SUPPORT. The command port: the fields of a beat and its word determine each other, every beat the encoder writes passes
the decoder's check, and one unfolding lemma for each kind of beat the decoder meets. -/

namespace Sys2Proof.Laws

open Sys2Proof.Machine

/-- Reading the fields of a beat's word gives the beat (R44). -/
@[simp] theorem ofWord_toWord (b : Beat) : Beat.ofWord b.toWord = b := by
  obtain ⟨op, rsv, nd, last, data⟩ := b
  simp only [Beat.ofWord, Beat.toWord, Beat.mk.injEq]
  refine ⟨?_, ?_, ?_, ?_, ?_⟩
  · ext i hi
    rw [BitVec.getElem_extractLsb']
    simp only [BitVec.getLsbD_append]
    interval_cases i <;> simp
  · ext i hi
    rw [BitVec.getElem_extractLsb']
    simp only [BitVec.getLsbD_append]
    interval_cases i <;> simp
  · simp only [BitVec.getLsbD_append]
    simp
  · simp only [BitVec.getLsbD_append]
    simp
  · ext i hi
    rw [BitVec.getElem_extractLsb']
    simp only [BitVec.getLsbD_append]
    simp [hi]

/-- Writing the fields of a word gives the word: the five fields are all of a beat (R44). -/
@[simp] theorem toWord_ofWord (w : Word) : (Beat.ofWord w).toWord = w := by
  simp only [Beat.ofWord, Beat.toWord]
  ext i hi
  simp only [BitVec.getElem_append, BitVec.getElem_extractLsb']
  interval_cases i <;> simp

@[simp] theorem ofWord_beatWord (op : Opcode) (nd last : Bool) (data : Byte) :
    Beat.ofWord (beatWord op nd last data) =
      { op := op.number, rsv := 0#2, nd := nd, last := last, data := data } := by
  simp [beatWord]

/-- Operation numbers and operations determine each other (R47). -/
@[simp] theorem opcodeOf_number (op : Opcode) : opcodeOf op.number = some op := by cases op <;> rfl

theorem number_of_opcodeOf (n : BitVec 4) (op : Opcode) (h : opcodeOf n = some op) : n = op.number := by
  revert n
  cases op <;> decide

/-- The operations whose operand is a byte sequence (R45 (c)). -/
def isSeqOp (op : Opcode) : Bool :=
  match op with
  | .cobsEnc | .cobsDec | .faChunk => true
  | .crcReset | .crcStep | .crcRead | .crcFinish => false

/-- A data beat of a sequence operation passes the check. -/
theorem checkBeat_seq_data (op : Opcode) (h : isSeqOp op = true) (last : Bool) (b : Byte) :
    checkBeat { op := op.number, rsv := 0#2, nd := false, last := last, data := b } = .ok op := by
  cases op <;> simp [isSeqOp] at h <;> simp [checkBeat]

/-- The one beat of an empty operand passes the check. -/
theorem checkBeat_seq_empty (op : Opcode) (h : isSeqOp op = true) :
    checkBeat { op := op.number, rsv := 0#2, nd := true, last := true, data := 0#8 } = .ok op := by
  cases op <;> simp [isSeqOp] at h <;> simp [checkBeat]

/-- A data beat inside an operand that is not the final one is collected (R45 (c)). -/
theorem decodeMore_data (op : Opcode) (h : isSeqOp op = true) (got : List Byte) (b : Byte) (rest : List Word) :
    decodeMore op got (beatWord op false false b :: rest) = decodeMore op (got ++ [b]) rest := by
  simp [decodeMore, checkBeat_seq_data op h]

/-- The final data beat completes the operation (R45 (c)). -/
theorem decodeMore_final (op : Opcode) (h : isSeqOp op = true) (got : List Byte) (b : Byte) (rest : List Word) :
    decodeMore op got (beatWord op false true b :: rest) = .op (op.withOperand (got ++ [b])) rest := by
  simp [decodeMore, checkBeat_seq_data op h]

end Sys2Proof.Laws
end

