-- ==== Sys2Proof/Laws/Config.lean ====
section
/-! SUPPORT. The parameter CRC_MIX is not narrowed by being plain data: every function of the type R8 gives it is the value
of some `CrcMix`. -/

namespace Sys2Proof.Laws

open Sys2Proof.Machine

/-- Looking a key up in the graph of a function on a list that holds the key. -/
theorem lookup_graph {α β : Type} [BEq α] [LawfulBEq α] (f : α → β) (keys : List α) (k : α) (h : k ∈ keys) :
    (keys.map fun x => (x, f x)).lookup k = some (f k) := by
  induction keys with
  | nil => simp at h
  | cons x xs ih =>
    by_cases hx : k = x
    · subst hx
      simp
    · have hb : (k == x) = false := by simpa using hx
      simp only [List.map_cons, List.lookup, hb]
      exact ih ((List.mem_cons.mp h).resolve_left hx)

/-- Every pair of a 16-bit state and a byte. -/
def crcMixInputs : List (Word × Byte) :=
  ((List.finRange (2 ^ 16)).map BitVec.ofFin).product ((List.finRange (2 ^ 8)).map BitVec.ofFin)

theorem mem_crcMixInputs (p : Word × Byte) : p ∈ crcMixInputs := by
  refine List.mem_product.mpr ⟨List.mem_map.mpr ⟨p.1.toFin, List.mem_finRange _, ?_⟩,
    List.mem_map.mpr ⟨p.2.toFin, List.mem_finRange _, ?_⟩⟩ <;> rfl

/-- R8, U2: CRC_MIX may be any total function of a 16-bit state and a byte. -/
theorem crcMix_every_function (f : Word → Byte → Word) : ∃ m : CrcMix, ∀ c b, crcMix m c b = f c b := by
  refine ⟨.table (crcMixInputs.map fun p => (p, f p.1 p.2)) 0#16, fun c b => ?_⟩
  simp only [crcMix]
  rw [lookup_graph (fun p : Word × Byte => f p.1 p.2) crcMixInputs (c, b) (mem_crcMixInputs (c, b))]
  rfl

end Sys2Proof.Laws
end

