-- ==== Sys2Proof/Laws/Exec.lean ====
section
/-! SUPPORT. What `exec` answers for each operation, as one update of the state, and how programs unfold. -/

namespace Sys2Proof.Laws

open Sys2Proof.Machine

theorem exec_crcReset (s : State) : exec .crcReset s = .next { s with crc := s.config.crcInit, result := none } := rfl

theorem exec_crcStep (b : Byte) (s : State) :
    exec (.crcStep b) s = .next { s with crc := crcMix s.config.crcMix s.crc b, result := none } := rfl

theorem exec_crcRead (s : State) : exec .crcRead s = .next { s with result := some (.word s.crc) } := rfl

theorem exec_crcFinish (s : State) :
    exec .crcFinish s = .next { s with crc := s.config.crcInit, result := some (.word s.crc) } := rfl

theorem exec_cobsEnc (p : List Byte) (s : State) :
    exec (.cobsEnc p) s = .next { s with result := some (.bytes (cobsEncode p)) } := rfl

theorem exec_cobsDec (x : List Byte) (s : State) :
    exec (.cobsDec x) s = .next { s with result := some (.decoded (cobsDecode x)) } := rfl

theorem exec_faChunk (c : List Byte) (s : State) :
    exec (.faChunk c) s = .next { assemble c s with result := none } := rfl

@[simp] theorem execAll_nil (s : State) : execAll [] s = .next s := rfl

/-- A program goes on from the next state of its first operation. -/
theorem execAll_cons (i : Instr) (is : List Instr) (s t : State) (h : exec i s = .next t) :
    execAll (i :: is) s = execAll is t := by
  simp [execAll, h]

/-- A program in two parts. -/
theorem execAll_append (is js : List Instr) (s t : State) (h : execAll is s = .next t) :
    execAll (is ++ js) s = execAll js t := by
  induction is generalizing s with
  | nil =>
    simp only [execAll_nil, Host.Outcome.next.injEq] at h
    simp [h]
  | cons i is ih =>
    simp only [List.cons_append, execAll] at h ⊢
    split at h
    · exact ih _ h
    · simp at h
    · simp at h

end Sys2Proof.Laws
end

