-- ==== Sys2Proof/Laws/PerInstr.lean ====
section
/-! SUPPORT. Statements for all instructions, one lemma per constructor of Instr. `EncodeLegal`: the beats an instruction is
encoded in are a legal sequence of beats, as WellFormed.lean writes R48 down. -/

namespace Sys2Proof.Laws

/-- The beats of a sequence operand are a legal sequence (R45 (c), R48). -/
theorem encodeSeq_wf (op : Opcode) (h : isSeqOp op = true) (s : List Byte) :
    beatsWf ((encodeSeq op s).map Beat.ofWord) = true := by
  have hd (last : Bool) (b : Byte) :
      Beat.wf { op := op.number, rsv := 0#2, nd := false, last := last, data := b } = true := by
    cases op <;> first | rfl | simp [isSeqOp] at h
  induction s with
  | nil => cases op <;> simp [encodeSeq, beatsWf] <;> first | rfl | simp [isSeqOp] at h
  | cons b s ih =>
    cases s with
    | nil => simp [encodeSeq, beatsWf, hd]
    | cons c s =>
      cases s <;>
        simp_all [encodeSeq, beatsWf, Beat.mayFollow]

end Sys2Proof.Laws

namespace Sys2Proof.Laws.EncodeLegal

/-- The encoding is a legal sequence of beats (R48). -/
def Statement (i : Instr) : Prop := beatsWf ((encode i).map Beat.ofWord) = true

theorem crcReset : Statement .crcReset := by
  unfold Statement
  decide

theorem crcStep (b : Byte) : Statement (.crcStep b) := by
  simp [Statement, encode, beatsWf]
  rfl

theorem crcRead : Statement .crcRead := by
  unfold Statement
  decide

theorem crcFinish : Statement .crcFinish := by
  unfold Statement
  decide

theorem cobsEnc (s : List Byte) : Statement (.cobsEnc s) := encodeSeq_wf .cobsEnc rfl s

theorem cobsDec (s : List Byte) : Statement (.cobsDec s) := encodeSeq_wf .cobsDec rfl s

theorem faChunk (s : List Byte) : Statement (.faChunk s) := encodeSeq_wf .faChunk rfl s

end Sys2Proof.Laws.EncodeLegal
end

