-- ==== Sys2Proof/Machine/Text.lean ====
section
/-! DEFINITION. The notation of spec/30_encoding.md R50: an operation is its mnemonic followed by its operand, a result stands
after an arrow. No behaviour depends on it (D19). -/

namespace Sys2Proof.Machine

/-- One hexadecimal digit. -/
def hexDigit (n : Nat) : String :=
  match n with
  | 0 => "0" | 1 => "1" | 2 => "2" | 3 => "3" | 4 => "4" | 5 => "5" | 6 => "6" | 7 => "7" | 8 => "8" | 9 => "9"
  | 10 => "A" | 11 => "B" | 12 => "C" | 13 => "D" | 14 => "E" | _ => "F"

/-- "a byte as two hexadecimal digits". -/
def textOfByte (b : Byte) : String := hexDigit (b.toNat / 16) ++ hexDigit (b.toNat % 16)

/-- The bytes of a sequence, separated by a blank. -/
def textOfBytes : List Byte → String
  | [] => ""
  | [b] => textOfByte b
  | b :: c :: s => textOfByte b ++ " " ++ textOfBytes (c :: s)

/-- "a sequence as bytes in square brackets in index order". -/
def textOfSeq (s : List Byte) : String := "[" ++ textOfBytes s ++ "]"

/-- A 16-bit value in hexadecimal. -/
def textOfWord (v : Word) : String := "0x" ++ textOfByte (v.extractLsb' 8 8) ++ textOfByte (v.extractLsb' 0 8)

/-- The names of the MalformedFrame causes (spec/60_exceptions.md R90). -/
def textOfCause : Cause → String
  | .zeroPointer => "ZERO_POINTER"
  | .zeroLiteral => "ZERO_LITERAL"
  | .overrun => "OVERRUN"

/-- An operation as R50 writes it. -/
def textOfInstr (i : Instr) : String :=
  match i with
  | .crcReset | .crcRead | .crcFinish => i.mnemonic
  | .crcStep b => i.mnemonic ++ " " ++ textOfByte b
  | .cobsEnc s | .cobsDec s | .faChunk s => i.mnemonic ++ " " ++ textOfSeq s

/-- A result as R50 writes it. -/
def textOfResult : Result → String
  | .word v => textOfWord v
  | .bytes s => textOfSeq s
  | .decoded (.ok s) => "Ok " ++ textOfSeq s
  | .decoded (.err c) => "Err MalformedFrame(" ++ textOfCause c ++ ")"

/-- An operation with its result after the arrow, as R50 writes it; an operation that returns nothing stands alone. -/
def textOfExecuted (i : Instr) (r : Option Result) : String :=
  match r with
  | none => textOfInstr i
  | some v => textOfInstr i ++ " => " ++ textOfResult v

end Sys2Proof.Machine
end

