-- ==== Sys2Proof/Tests/Slice0.lean ====
section
/-! SUPPORT. The model's own tests. Expected values are the spec's: spec/95_test_vectors.md (section named at each group),
spec/30_encoding.md R47, and hand calculation from the rules. Witnesses of the statements' hypotheses stand at the end. -/

namespace Sys2Proof.Tests

open Sys2Proof.Machine

/-- The state an outcome goes on in. -/
def after (o : Host.Outcome State Fault Refusal) : Option State :=
  match o with
  | .next t => some t
  | .fault _ => none
  | .refused _ => none

/-- The result an outcome leaves. -/
def resultOf (o : Host.Outcome State Fault Refusal) : Option Result := (after o).bind (·.result)

/-- The refusal of an outcome. -/
def refusalOf (o : Host.Outcome State Fault Refusal) : Option Refusal :=
  match o with
  | .next _ => none
  | .fault r => nomatch r
  | .refused r => some r

/-- Right after reset with a given `crc`. -/
def withCrc (c : Word) : State := { State.reset with crc := c }

/-- Right after reset with a given `tail`. -/
def withTail (t : List Byte) : State := { State.reset with tail := t }

/-- Right after reset of an instance with TAIL_MAX = n, with a given `tail`. -/
def capped (n : Nat) (t : List Byte) : State :=
  { State.resetWith { defaultConfig with tailMax := some n } with tail := t }

/-- The same while an over-long frame is being dropped. -/
def dropping (n : Nat) : State := { capped n [] with drop := true }

/-- `n` bytes 0x01. -/
def ones (n : Nat) : List Byte := List.replicate n 0x01#8

/-! ### WellFormed: each check refuses an ill-formed term (R48, R8) -/

theorem test_wf_reserved_op : Beat.opAssigned { op := 0x7#4, rsv := 0#2, nd := true, last := true, data := 0#8 } = false := by decide
theorem test_wf_reserved_bits : Beat.rsvClear { op := 0x0#4, rsv := 1#2, nd := true, last := true, data := 0#8 } = false := by decide
theorem test_wf_empty_not_last : Beat.emptyFormOk { op := 0x4#4, rsv := 0#2, nd := true, last := false, data := 0#8 } = false := by decide
theorem test_wf_empty_with_data : Beat.emptyFormOk { op := 0x4#4, rsv := 0#2, nd := true, last := true, data := 5#8 } = false := by decide
theorem test_wf_read_with_byte : Beat.noOperandOk { op := 0x2#4, rsv := 0#2, nd := false, last := true, data := 0#8 } = false := by decide
theorem test_wf_step_without_byte : Beat.byteOperandOk { op := 0x1#4, rsv := 0#2, nd := true, last := true, data := 0#8 } = false := by decide
theorem test_wf_beat_step_not_last : Beat.wf { op := 0x1#4, rsv := 0#2, nd := false, last := false, data := 0#8 } = false := by decide
theorem test_wf_other_op_inside :
    Beat.mayFollow (Beat.ofWord 0x4011#16) (Beat.ofWord 0x5122#16) = false := by decide
theorem test_wf_sequence_not_ended : beatsWf [Beat.ofWord 0x6011#16] = false := by decide
theorem test_wf_empty_beat_inside : openOperand [Beat.ofWord 0x6011#16, Beat.ofWord 0x6300#16] = false := by decide
theorem test_wf_tail_max_zero : Config.wf { defaultConfig with tailMax := some 0 } = false := by decide

/-! ### Decoding: each operation's beats, written out from R44, R45 and R47, and the illegal ones of R48 -/

theorem test_decode_crc_reset : decode [0b0000001100000000#16] = .op .crcReset [] := by decide
theorem test_decode_crc_step : decode [0b0001000110101011#16] = .op (.crcStep 0xAB#8) [] := by decide
theorem test_decode_crc_read : decode [0b0010001100000000#16] = .op .crcRead [] := by decide
theorem test_decode_crc_finish : decode [0b0011001100000000#16] = .op .crcFinish [] := by decide
theorem test_decode_cobs_enc :
    decode [0b0100000000010001#16, 0b0100000000000000#16, 0b0100000100100010#16] = .op (.cobsEnc [0x11#8, 0x00#8, 0x22#8]) [] := by decide
theorem test_decode_cobs_dec : decode [0b0101000000000010#16, 0b0101000100010001#16] = .op (.cobsDec [0x02#8, 0x11#8]) [] := by decide
theorem test_decode_fa_chunk_empty : decode [0b0110001100000000#16] = .op (.faChunk []) [] := by decide
theorem test_decode_fa_chunk :
    decode [0b0110000011111111#16, 0b0110000100000000#16, 0x0300#16] = .op (.faChunk [0xFF#8, 0x00#8]) [0x0300#16] := by decide
theorem test_decode_waits : decode [0x4011#16, 0x4022#16] = .waiting := by decide
theorem test_decode_reserved_op : decode [0xF300#16] = .illegal .reservedOp [] := by decide
theorem test_decode_reserved_bits : decode [0x2700#16] = .illegal .reservedBits [] := by decide
theorem test_decode_empty_form : decode [0x4200#16] = .illegal .emptyBeatForm [] := by decide
theorem test_decode_unwanted_operand : decode [0x0100#16] = .illegal .unwantedOperand [] := by decide
theorem test_decode_step_without_byte : decode [0x1300#16] = .illegal .byteOperandForm [] := by decide
theorem test_decode_interrupted : decode [0x4011#16, 0x0300#16, 0x2300#16] = .illegal .interruptsOperand [0x2300#16] := by decide
theorem test_decode_empty_inside : decode [0x4011#16, 0x4300#16] = .illegal .emptyBeatInside [] := by decide
theorem test_encode_program5 :
    encode (.cobsEnc [0x11#8, 0x00#8, 0x22#8, 0xBC#8, 0xEF#8]) = [0x4011#16, 0x4000#16, 0x4022#16, 0x40BC#16, 0x41EF#16] := by decide
theorem test_table_word_row : decodeTableWord 16 0x6000 = some (.faChunk [0x00#8, 0x00#8]) := by decide

/-! ### The Checksum Engine: section 2 -/

theorem test_crc_step_trace : (after (exec (.crcStep 0xAB#8) (withCrc 0x1234#16))).map (·.crc) = some 0x02F2#16 := by decide
theorem test_crc_step_drops_high_bits : (after (exec (.crcStep 0x00#8) (withCrc 0x8000#16))).map (·.crc) = some 0x9188#16 := by decide
theorem test_crc_check_value :
    crcOf defaultConfig [0x31#8, 0x32#8, 0x33#8, 0x34#8, 0x35#8, 0x36#8, 0x37#8, 0x38#8, 0x39#8] = 0x29B1#16 := by decide
theorem test_crc_bit_serial_row : crcBitSerial 0x0000#16 0x01#8 = 0x1021#16 := by decide
theorem test_crc_reset : (after (exec .crcReset (withCrc 0x29B1#16))).map (·.crc) = some 0xFFFF#16 := by decide
theorem test_crc_read_raw : after (exec .crcRead (withCrc 0x3DBA#16)) = some { withCrc 0x3DBA#16 with result := some (.word 0x3DBA#16) } := by decide
theorem test_crc_finish_returns_old : resultOf (exec .crcFinish (withCrc 0x29B1#16)) = some (.word 0x29B1#16) := by decide
theorem test_crc_finish_resets : (after (exec .crcFinish (withCrc 0x29B1#16))).map (·.crc) = some 0xFFFF#16 := by decide

/-! ### The COBS Codec: sections 1, 3 and 4 -/

theorem test_cobs_enc_delims : cobsEncode [0x11#8, 0x00#8] = [0x00#8, 0x02#8, 0x11#8, 0x01#8, 0x00#8] := by decide
theorem test_cobs_enc_full_block_then_delim :
    cobsEncode (ones 254 ++ [0x00#8, 0x11#8]) = [0x00#8, 0xFF#8] ++ ones 254 ++ [0x01#8, 0x02#8, 0x11#8, 0x00#8] := by decide +kernel
theorem test_cobs_dec_no_delim_after_full :
    cobsDecode (0xFF#8 :: ones 254 ++ [0x02#8, 0x09#8]) = .ok (ones 254 ++ [0x09#8]) := by decide +kernel
theorem test_cobs_dec_literal_before_end : cobsDecode [0x03#8, 0x00#8] = .err .zeroLiteral := by decide
theorem test_serial_decoder_pointer : serialDecode [0x02#8, 0x11#8, 0x00#8] = .err .zeroPointer := by decide
theorem test_serial_encoder_full :
    serialEncode (ones 254 ++ [0x00#8]) = [0x00#8, 0xFF#8] ++ ones 254 ++ [0x01#8, 0x01#8, 0x00#8] := by decide +kernel
theorem test_printed_encoder_loses : cobsDecode (printedInterior (ones 254 ++ [0x00#8])) = .ok (ones 254) := by decide +kernel

/-! ### The Frame Assembler: section 5, cases F, O and S -/

theorem test_fa_bad_then_good :
    (after (exec (.faChunk [0x00#8, 0x05#8, 0x11#8, 0x00#8, 0x00#8, 0x02#8, 0x22#8, 0x00#8]) State.reset)).map (·.out) =
      some [.frameError (.malformed .overrun), .payload [0x22#8]] := by decide
theorem test_fa_unfinished_frame :
    (after (exec (.faChunk [0x00#8, 0x03#8, 0x11#8, 0x22#8, 0x00#8, 0x00#8, 0x04#8, 0x33#8]) State.reset)).map (·.tail) =
      some [0x04#8, 0x33#8] := by decide
theorem test_fa_capped_overflow :
    (after (exec (.faChunk [0x33#8, 0x44#8, 0x66#8, 0x77#8]) (capped 4 [0x05#8, 0x11#8, 0x22#8]))).map (fun t => (t.tail, t.drop, t.out)) =
      some ([], true, [.frameError .frameTooLong]) := by decide
theorem test_fa_capped_resumes :
    (after (exec (.faChunk [0x88#8, 0x00#8, 0x02#8, 0x55#8, 0x00#8]) (dropping 4))).map (fun t => (t.tail, t.drop, t.out)) =
      some ([], false, [.payload [0x55#8]]) := by decide
theorem test_error_numbers :
    [errorNumber (.malformed .zeroPointer), errorNumber (.malformed .zeroLiteral), errorNumber (.malformed .overrun),
      errorNumber .frameTooLong] = [0x01#8, 0x02#8, 0x03#8, 0x10#8] := by decide

/-! ### Steps -/

theorem test_step_first_after_reset :
    resultOf (step (State.reset.withFetchWord 16 0x2300)) = some (.word 0xFFFF#16) := by decide
theorem test_reset_parameters : State.reset.crc = 0xFFFF#16 ∧ State.reset.config.tailMax = none := by decide
theorem test_step_idle_at_reset : after (step State.reset) = some State.reset := by decide
theorem test_step_leaves_later_beats :
    (after (step (State.reset.present [0x4300#16, 0x0300#16]))).map (·.beats) = some [0x0300#16] := by decide
theorem test_step_refuses :
    refusalOf (step (State.reset.present [0x4011#16, 0x0300#16])) = some (.illegalBeat .interruptsOperand) := by decide

/-! ### The notation: the examples of R50 -/

theorem test_text_crc_read : textOfExecuted .crcRead (some (.word 0x29B1#16)) = "CRC.READ => 0x29B1" := by decide
theorem test_text_cobs_dec :
    textOfExecuted (.cobsDec [0x00#8]) (some (.decoded (cobsDecode [0x00#8]))) =
      "COBS.DEC [00] => Err MalformedFrame(ZERO_POINTER)" := by decide
theorem test_text_fa_chunk : textOfExecuted (.faChunk [0x00#8, 0x04#8, 0x11#8]) none = "FA.CHUNK [00 04 11]" := by decide

/-! ### Witnesses: for every statement with hypotheses, and for each of its clauses, a state and operands that meet them -/

theorem witness_CrcResetSetsInitialConstant : (withCrc 0xFFFF#16).crc = (withCrc 0xFFFF#16).config.crcInit := by decide
theorem witness_CrcStepFoldsOneByte :
    (withCrc 0xF01F#16).config.crcMix = defaultCrcMix ∧
    after (exec (.crcStep 0x00#8) (withCrc 0xF01F#16)) = some { withCrc 0xF01F#16 with result := none } ∧
    after (exec (.crcStep 0x00#8) (withCrc 0xF01E#16)) ≠ some { withCrc 0xF01E#16 with result := none } := by decide
theorem witness_CrcBelongsToTheChecksumEngine : isChecksumOp (.faChunk [0x00#8]) = false ∧ isChecksumOp .crcRead = true := by decide
theorem witness_SplitRunsPartitionThePayload :
    [[], [0x11#8]] ≠ [] ∧ (∀ r ∈ [[], [0x11#8]], 0x00#8 ∉ r) ∧ List.intercalate [0x00#8] [[], [0x11#8]] = [0x00#8, 0x11#8] := by decide
theorem witness_CobsDecReturnsItsDecode : cobsDecode [0x05#8, 0x11#8, 0x22#8] = .err .overrun := by decide
theorem ones_free (n : Nat) : 0x00#8 ∉ ones n := by simp [ones, List.mem_replicate]
theorem ones_length (n : Nat) : (ones n).length = n := List.length_replicate
theorem witness_NonCanonicalInteriorsAreAccepted :
    0x00#8 ∉ ones 253 ∧ 0x00#8 ∉ ones 254 ∧ (ones 253).length ≤ 253 ∧ (ones 254).length ≤ 254 ∧ (ones 254).length = 254 :=
  ⟨ones_free 253, ones_free 254, (ones_length 253).le, (ones_length 254).le, ones_length 254⟩
theorem witness_PrintedEncoderLosesDelimiters : printedLosses [0x11#8, 0x00#8] = 0 := by decide
theorem witness_FaChunkProcessesEveryStretch :
    State.reset.config.tailMax = none ∧ 0x00#8 ∉ [0x02#8] ∧ cobsDecode [0x02#8] = .err .overrun := by decide
theorem witness_FaChunkIsByteSerialFeed :
    (withTail [0x04#8]).config.tailMax = none ∧ 0x00#8 ∉ (withTail [0x04#8]).tail := by decide
theorem witness_ChunkBoundariesDoNotMatter : [[0x04#8], []] ≠ [] := by decide
theorem witness_FaBytesEqualsFaChunk : 0x00#8 ∉ (capped 4 [0x04#8]).tail := by decide
theorem witness_FaChunkBoundedByteByByte :
    (capped 1 [0x01#8]).config.tailMax = some 1 ∧ (capped 1 [0x01#8]).tail.length = 1 ∧ (dropping 1).drop = true ∧
    (dropping 1).config.tailMax = some 1 := by decide
theorem witness_FaChunkBoundedByStretches :
    (capped 4 [0x04#8]).config.tailMax = some 4 ∧ 0x00#8 ∉ (capped 4 [0x04#8]).tail ∧ (capped 4 [0x04#8]).tail.length ≤ 4 ∧
    (capped 4 [0x04#8]).drop = false ∧ (dropping 4).config.tailMax = some 4 ∧ (dropping 4).drop = true ∧ (dropping 4).tail = [] ∧
    (cutAtDelims ((dropping 4).tail ++ [0x06#8])).1 = [] ∧ (cutAtDelims ((dropping 4).tail ++ [0x06#8, 0x00#8])).1 ≠ [] := by decide
theorem witness_BoundedAgreesOnShortStretches :
    (capped 2 [0x02#8]).config.tailMax = some 2 ∧ (capped 2 [0x02#8]).drop = false ∧ 0x00#8 ∉ (capped 2 [0x02#8]).tail ∧
    (∀ g ∈ (cutAtDelims ((capped 2 [0x02#8]).tail ++ [0x55#8, 0x00#8, 0x01#8, 0x02#8])).1, g.length ≤ 2) ∧
    (cutAtDelims ((capped 2 [0x02#8]).tail ++ [0x55#8, 0x00#8, 0x01#8, 0x02#8])).2.length ≤ 2 := by decide
theorem witness_FaChunkFrame : State.reset.config.tailMax = none := by decide
theorem witness_OutputLogIsAppendOnly : isAssemblerOp (.cobsDec [0x00#8]) = false := by decide
theorem witness_FrameLengthAndBoundedExpansion : 1 ≤ [0x00#8].length ∧ (cobsEncode [0x00#8]).length = 4 := by decide
theorem witness_AssemblerEdgeCases :
    State.reset.config.tailMax = none ∧ 0x00#8 ∉ State.reset.tail ∧ 0x00#8 ∉ [0x01#8, 0x02#8] ∧ State.reset.tail = [] ∧
    [0x11#8] ≠ [] := by decide
theorem witness_BadFrameIsIsolated :
    0x00#8 ∉ (capped 3 [0x05#8]).tail ++ [0x11#8, 0x22#8] ∧ (capped 3 [0x05#8]).drop = false ∧
    (capped 3 [0x05#8]).config.tailMax = some 3 ∧ ((capped 3 [0x05#8]).tail ++ [0x11#8, 0x22#8]).length ≤ 3 ∧
    cobsDecode ((capped 3 [0x05#8]).tail ++ [0x11#8, 0x22#8]) = .err .overrun := by decide
theorem witness_StreamingEquivalence :
    [[0x00#8, 0x02#8], [], [0x11#8, 0x00#8]].flatten = cobsEncode [0x11#8] ∧ (capped 2 []).tail = [] ∧ (capped 2 []).drop = false ∧
    (capped 2 []).config.tailMax = some 2 ∧ (cobsEncode [0x11#8]).length - 2 ≤ 2 ∧
    [[0x00#8], [0x01#8, 0x00#8]].flatten = cobsEncode [] := by decide
theorem witness_AssemblerStateIsAFunctionOfTheStream : (withTail [0x05#8]).config.tailMax = none := by decide
theorem witness_EmptyPayloadGivesNoEvent : (capped 1 []).tail = [] ∧ (capped 1 []).drop = false ∧ (capped 1 []).config.wf = true := by decide
theorem witness_UnitsCommute :
    isChecksumOp (.crcStep 0xAB#8) ≠ isChecksumOp (.faChunk [0x00#8]) ∧ isAssemblerOp (.cobsEnc []) ≠ isAssemblerOp (.faChunk []) := by decide
theorem witness_ParametersNeverChange : after (step (State.reset.present [0x11AB#16])) ≠ none := by decide
theorem witness_InvariantHoldsAtReset : (capped 4 []).config.wf = true ∧ State.reset.config.wf = true := by decide
theorem witness_StepKeepsTheInvariant : Inv (dropping 4) ∧ after (step ((dropping 4).present [0x6100#16])) ≠ none := by
  refine ⟨⟨by decide, by decide, by decide, fun n h => ?_, by simp [dropping, capped, State.resetWith],
    by simp [dropping, capped, State.resetWith]⟩, by decide⟩
  simp [dropping, capped, State.resetWith]
theorem witness_EveryStepFollowsTheStream :
    FollowsStream [0x00#8, 0x04#8] (withTail [0x04#8]) ∧
    nextFed ((withTail [0x04#8]).present [0x6011#16, 0x6100#16]) = [0x11#8, 0x00#8] ∧
    after (step ((withTail [0x04#8]).present [0x6011#16, 0x6100#16])) ≠ none :=
  ⟨⟨by decide, by decide, by decide, by decide⟩, by decide, by decide⟩
theorem witness_OnlyItsEncodingDecodesToIt : decode [0x6004#16, 0x6111#16, 0x2300#16] = .op (.faChunk [0x04#8, 0x11#8]) [0x2300#16] := by decide
theorem witness_LegalBeatsSpellExactlyOneOperation : beatsWf ([0x6004#16, 0x6111#16].map Beat.ofWord) = true ∧
    encode (.faChunk [0x04#8, 0x11#8]) = [0x6004#16, 0x6111#16] := by decide
theorem witness_StepRunsTheDecodedOperation : decode (State.reset.present [0x11AB#16, 0x2300#16]).beats = .op (.crcStep 0xAB#8) [0x2300#16] := by decide
theorem witness_StepWaitsForTheFinalBeat :
    openOperand (State.reset.beats.map Beat.ofWord) = true ∧
    openOperand ((State.reset.present [0x6004#16, 0x6000#16]).beats.map Beat.ofWord) = true := by decide
theorem witness_IllegalBeatIsRefused :
    openOperand (([] : List Word).map Beat.ofWord) = true ∧ (Beat.ofWord 0x7300#16).wf = false ∧
    openOperand ([0x4011#16].map Beat.ofWord) = true ∧
    (∃ p ∈ [0x4011#16].getLast?, (Beat.ofWord p).mayFollow (Beat.ofWord 0x0300#16) = false) :=
  ⟨by decide, by decide, by decide, 0x4011#16, rfl, by decide⟩
theorem witness_PlacedTableWordIsExecuted : decodeTableWord 16 0x4000 = some (.cobsEnc [0x00#8, 0x00#8]) := by decide

end Sys2Proof.Tests
end

/-! The family 10_state: reset gives every state element its reset value (spec/10_state.md R23), and `crc` belongs to the
Checksum Engine (R10). The key fact of the second is that the Frame Assembler's functions commute with a write of `crc`,
so that they neither read nor write it (R16). -/

namespace Sys2Proof.Laws

open Sys2Proof.Machine

/-! ### The Frame Assembler commutes with a write of `crc` -/

theorem process_setCrc (g : List Byte) (v : Word) (s : State) :
    process g (s.setCrc v) = (process g s).setCrc v := by
  rw [process_eq, process_eq]
  rfl

theorem extractLoop_setCrc (rounds : Nat) (v : Word) (s : State) :
    extractLoop rounds (s.setCrc v) = (extractLoop rounds s).setCrc v := by
  induction rounds generalizing s with
  | zero => rfl
  | succ n ih =>
    simp only [extractLoop, setCrc_tail]
    cases findByte delim s.tail with
    | none => rfl
    | some i =>
      calc extractLoop n (process (s.tail.take i) ((s.setTail (s.tail.drop (i + 1))).setCrc v))
          = extractLoop n ((process (s.tail.take i) (s.setTail (s.tail.drop (i + 1)))).setCrc v) := by
            rw [process_setCrc]
        _ = (extractLoop n (process (s.tail.take i) (s.setTail (s.tail.drop (i + 1))))).setCrc v := ih _

theorem chunkUnbounded_setCrc (c : List Byte) (v : Word) (s : State) :
    chunkUnbounded c (s.setCrc v) = (chunkUnbounded c s).setCrc v :=
  extractLoop_setCrc _ v (s.setTail (s.tail ++ c))

theorem feedBounded_setCrc (n : Nat) (b : Byte) (v : Word) (s : State) :
    feedBounded n b (s.setCrc v) = (feedBounded n b s).setCrc v := by
  by_cases hb : b = delim
  · subst hb
    cases hd : s.drop with
    | true =>
      simp only [feedBounded, setCrc_drop, hd, if_true]
      rfl
    | false =>
      rw [feedBounded_delim n s hd, feedBounded_delim n (s.setCrc v) hd]
      rfl
  · cases hd : s.drop with
    | true => simp [feedBounded, hb, hd]
    | false =>
      by_cases hn : s.tail.length = n
      · rw [feedBounded_overflow n b s hb hd hn, feedBounded_overflow n b (s.setCrc v) hb hd hn]
        rfl
      · rw [feedBounded_append n b s hb hd hn, feedBounded_append n b (s.setCrc v) hb hd hn]
        rfl

theorem chunkBounded_setCrc (n : Nat) (c : List Byte) (v : Word) (s : State) :
    chunkBounded n c (s.setCrc v) = (chunkBounded n c s).setCrc v := by
  induction c generalizing s with
  | nil => rfl
  | cons b c ih => rw [chunkBounded_cons, chunkBounded_cons, feedBounded_setCrc, ih]

/-- FA.CHUNK's effect on `tail`, `drop` and `out` does not depend on `crc`, for every TAIL_MAX (R16). -/
theorem assemble_setCrc (c : List Byte) (v : Word) (s : State) :
    assemble c (s.setCrc v) = (assemble c s).setCrc v := by
  simp only [assemble, setCrc_config]
  split
  · exact chunkUnbounded_setCrc c v s
  · exact chunkBounded_setCrc _ c v s

theorem assemble_crc (c : List Byte) (s : State) : (assemble c s).crc = s.crc := by
  obtain ⟨tail, drop, es, h, -⟩ := assemble_change c s
  rw [h]

/-! ### The operations of the other units -/

/-- An operation outside the Checksum Engine goes on in a state with the same `crc`, and from any other value of `crc` in
the same state but for that value (R10). -/
theorem exec_frames_crc (i : Instr) (s : State) (h : isChecksumOp i = false) :
    ∃ t, exec i s = .next t ∧ t.crc = s.crc ∧
      ∀ v : Word, exec i (s.setCrc v) = .next (t.setCrc v) := by
  cases i with
  | crcReset | crcStep | crcRead | crcFinish => cases h
  | cobsEnc p => exact ⟨_, exec_cobsEnc p s, rfl, fun v => exec_cobsEnc p (s.setCrc v)⟩
  | cobsDec x => exact ⟨_, exec_cobsDec x s, rfl, fun v => exec_cobsDec x (s.setCrc v)⟩
  | faChunk c =>
    refine ⟨_, exec_faChunk c s, assemble_crc c s, fun v => ?_⟩
    rw [exec_faChunk, assemble_setCrc]
    rfl

/-! ### The obligations -/

/-- Settles O1: the reset event writes every element, and the state right after reset is a reset state. -/
theorem resetGivesEveryElementItsResetValue : Obligations.ResetGivesEveryElementItsResetValue :=
  ⟨fun s => ⟨resetEvent_crc s, resetEvent_tail s, resetEvent_drop s, resetEvent_out s, resetEvent_config s⟩,
    rfl, rfl, rfl, rfl⟩

/-- Settles O6: the four operations of the Checksum Engine by what they answer, the others by `exec_frames_crc`. -/
theorem crcBelongsToTheChecksumEngine : Obligations.CrcBelongsToTheChecksumEngine := by
  refine ⟨fun i s => ?_, resetEvent_crc⟩
  cases h : isChecksumOp i with
  | false =>
    obtain ⟨t, ht, hcrc, hsub⟩ := exec_frames_crc i s h
    refine ⟨t, ht, ?_, ?_, ?_, fun _ => hcrc, fun _ => hsub⟩
    · rintro (rfl | rfl) <;> cases h
    · rintro b rfl
      cases h
    · rintro (rfl | rfl) <;> cases h
  | true =>
    cases i with
    | crcReset => exact ⟨_, exec_crcReset s, by simp⟩
    | crcStep b => exact ⟨_, exec_crcStep b s, by simp⟩
    | crcRead => exact ⟨_, exec_crcRead s, by simp⟩
    | crcFinish => exact ⟨_, exec_crcFinish s, by simp⟩
    | cobsEnc | cobsDec | faChunk => cases h

end Sys2Proof.Laws

/-! The family 40_cobs: the sub-runs of a payload (spec/40_cobs.md R54), the frame COBS.ENC returns (R53), and the round
trip through COBS.DEC (R61). The key facts are that `splitRuns` is the library's `List.splitOn` at 0x00, and that the
blocks of one sub-run decode to the sub-run whatever interior follows them. -/

namespace Sys2Proof.Laws

open Sys2Proof.Machine

/-! ### The sub-runs of a payload (R54) -/

theorem splitRuns_delim_cons (s : List Byte) : splitRuns (delim :: s) = [] :: splitRuns s := if_pos rfl

theorem splitRuns_cons (b : Byte) (s : List Byte) (h : b ≠ delim) :
    splitRuns (b :: s) = (splitRuns s).modifyHead (b :: ·) := by
  rw [splitRuns, if_neg h]
  cases hs : splitRuns s with
  | nil => exact absurd hs (splitRuns_ne_nil s)
  | cons r rs => rfl

theorem splitRuns_eq_splitOn (s : List Byte) : splitRuns s = s.splitOn delim := by
  induction s with
  | nil => rfl
  | cons b s ih =>
    rw [List.splitOn_cons_eq_if_modifyHead, ← ih]
    by_cases h : b = delim
    · simp [h, splitRuns_delim_cons]
    · simp [h, splitRuns_cons]

theorem intercalate_splitRuns (s : List Byte) : List.intercalate [delim] (splitRuns s) = s := by
  rw [splitRuns_eq_splitOn, List.intercalate_splitOn]

theorem splitRuns_intercalate (runs : List (List Byte)) (hne : runs ≠ []) (hfree : ∀ r ∈ runs, delim ∉ r) :
    splitRuns (List.intercalate [delim] runs) = runs := by
  rw [splitRuns_eq_splitOn, List.splitOn_intercalate delim hfree hne]

theorem splitRuns_length (s : List Byte) : (splitRuns s).length = s.count delim + 1 := by
  induction s with
  | nil => rfl
  | cons b s ih =>
    by_cases h : b = delim
    · simp [h, splitRuns_delim_cons, ih]
    · simp [h, splitRuns_cons, ih]

theorem splitRuns_free (s : List Byte) : ∀ r ∈ splitRuns s, delim ∉ r := by
  induction s with
  | nil => simp [splitRuns]
  | cons b s ih =>
    by_cases h : b = delim
    · simpa [h, splitRuns_delim_cons] using ih
    · rw [splitRuns_cons b s h]
      cases hs : splitRuns s with
      | nil => simp
      | cons r rs =>
        rw [hs] at ih
        simpa [Ne.symm h] using ih

/-- Joining with one byte between neighbours adds one byte less than there are sequences. -/
theorem length_intercalate_singleton (d : Byte) (runs : List (List Byte)) (h : runs ≠ []) :
    (List.intercalate [d] runs).length + 1 = runs.length + (runs.map List.length).sum := by
  induction runs with
  | nil => exact absurd rfl h
  | cons r rs ih =>
    cases rs with
    | nil => simp [Nat.add_comm]
    | cons q rs =>
      have ih := ih (List.cons_ne_nil q rs)
      simp only [List.intercalate_cons_cons, List.length_append, List.length_cons, List.length_nil, List.map_cons,
        List.sum_cons] at ih ⊢
      omega

theorem length_eq_of_splitRuns (s : List Byte) :
    s.length = s.count delim + ((splitRuns s).map List.length).sum := by
  have h := length_intercalate_singleton delim (splitRuns s) (splitRuns_ne_nil s)
  rw [intercalate_splitRuns, splitRuns_length] at h
  omega

theorem splitRuns_replicate_delim (n : Nat) :
    splitRuns (List.replicate n delim) = List.replicate (n + 1) [] := by
  induction n with
  | zero => rfl
  | succ n ih => rw [List.replicate_succ, splitRuns_delim_cons, ih, ← List.replicate_succ]

/-! ### The blocks of one sub-run (R55) -/

/-- The loop of R55 does not depend on its bound once that reaches the length of the sub-run. -/
theorem chunkBlocks_fuel (fuel : Nat) (r : List Byte) (h : r.length ≤ fuel) :
    chunkBlocks fuel r = chunkBlocks r.length r := by
  induction fuel using Nat.strong_induction_on generalizing r with
  | _ fuel ih =>
    match fuel, r, h with
    | 0, [], _ => rfl
    | n + 1, [], _ => rfl
    | n + 1, b :: r, h =>
      have hr : r.length ≤ n := by simpa using h
      have hd : ((b :: r).drop maxRun).length ≤ r.length := by simp [maxRun]
      have h1 := ih n (by omega) _ (hd.trans hr)
      have h2 := ih r.length (by omega) _ hd
      simp only [List.length_cons, chunkBlocks, h1, h2]

/-- A sub-run of fewer than 254 bytes is one block; the empty one is the block `01`. -/
theorem runBlocks_short (r : List Byte) (isLast : Bool) (h : r.length < maxRun) :
    runBlocks r isLast = pointerByte r.length :: r := by
  cases r with
  | nil => rfl
  | cons b r =>
    have htake : (b :: r).take maxRun = b :: r := List.take_of_length_le h.le
    have hdrop : (b :: r).drop maxRun = [] := List.drop_of_length_le h.le
    have hmod : (r.length + 1) % maxRun ≠ 0 := by
      rw [← List.length_cons (a := b), Nat.mod_eq_of_lt h]
      exact Nat.succ_ne_zero _
    have hend : chunkBlocks r.length [] = [] := chunkBlocks_fuel _ _ (Nat.zero_le _)
    simp [runBlocks, chunkBlocks, htake, hdrop, hend, hmod]

/-- One round of the loop of R55: 254 literals are a full block. -/
theorem chunkBlocks_full (c r : List Byte) (hc : c.length = maxRun) :
    chunkBlocks (c ++ r).length (c ++ r) = ptrFull :: c ++ chunkBlocks r.length r := by
  cases c with
  | nil => cases hc
  | cons b c =>
    have htake : (b :: (c ++ r)).take maxRun = b :: c := by
      rw [← List.cons_append, List.take_left' hc]
    have hdrop : (b :: (c ++ r)).drop maxRun = r := by
      rw [← List.cons_append, List.drop_left' hc]
    have hfuel : chunkBlocks (c ++ r).length r = chunkBlocks r.length r := chunkBlocks_fuel _ _ (by simp)
    rw [List.cons_append, List.length_cons, chunkBlocks]
    simp only [htake, hdrop, hfuel, hc]
    rfl

/-- A sub-run that goes on after 254 bytes, or that a 0x00 follows, is a full block and the blocks of what is left. -/
theorem runBlocks_full_append (c r : List Byte) (isLast : Bool) (hc : c.length = maxRun)
    (h : r ≠ [] ∨ isLast = false) : runBlocks (c ++ r) isLast = ptrFull :: c ++ runBlocks r isLast := by
  have hne : (c ++ r).length ≠ 0 := by simp [hc, maxRun]
  have hmod : (c ++ r).length % maxRun = r.length % maxRun := by simp [hc]
  rw [runBlocks, if_neg hne, chunkBlocks_full c r hc, hmod]
  cases r with
  | nil =>
    have hl : isLast = false := h.resolve_left (absurd rfl)
    simp [hl, runBlocks, chunkBlocks]
  | cons b r => simp [runBlocks]

/-- 254 bytes that end the payload are a full block and nothing more. -/
theorem runBlocks_full_last (c : List Byte) (hc : c.length = maxRun) : runBlocks c true = ptrFull :: c := by
  have hne : c.length ≠ 0 := by simp [hc, maxRun]
  have hblocks : chunkBlocks c.length c = ptrFull :: c := by simpa [chunkBlocks] using chunkBlocks_full c [] hc
  simp [runBlocks, hne, hblocks]

/-! ### The interior of a frame (R53) -/

/-- `interiorOf` marks as last exactly the sub-run at the last index. -/
theorem interiorOf_eq_zipIdx_flatMap (runs : List (List Byte)) (k : Nat) :
    interiorOf runs = (runs.zipIdx k).flatMap fun rk => runBlocks rk.1 (rk.2 + 1 == k + runs.length) := by
  induction runs generalizing k with
  | nil => rfl
  | cons r rs ih =>
    cases rs with
    | nil => simp [interiorOf]
    | cons q rs =>
      have hlast : k + (r :: q :: rs).length = k + 1 + (q :: rs).length := by simp; omega
      have hfirst : (k + 1 == k + 1 + (q :: rs).length) = false := by simp
      rw [interiorOf, ih (k + 1), hlast, List.zipIdx_cons (a := r), List.flatMap_cons]
      simp only [hfirst]

theorem interiorOf_replicate_nil (n : Nat) :
    interiorOf (List.replicate (n + 1) []) = List.replicate (n + 1) ptrMin := by
  induction n with
  | zero => rfl
  | succ n ih =>
    calc interiorOf (List.replicate (n + 2) [])
        = ptrMin :: interiorOf (List.replicate (n + 1) []) := rfl
      _ = List.replicate (n + 2) ptrMin := by rw [ih, ← List.replicate_succ]

/-! ### Decoding what the encoder emits (R61) -/

theorem prependPayload_append (a b : List Byte) (d : Decoded) :
    prependPayload a (prependPayload b d) = prependPayload (a ++ b) d := by
  cases d <;> simp [prependPayload]

theorem pointerByte_toNat (n : Nat) (h : n ≤ maxRun) : (pointerByte n).toNat = n + 1 := by
  unfold maxRun at h
  simp only [pointerByte, BitVec.toNat_ofNat]
  omega

theorem pointerByte_ne_delim (n : Nat) (h : n ≤ maxRun) : pointerByte n ≠ delim := by
  intro he
  have hn := pointerByte_toNat n h
  rw [he] at hn
  cases hn

theorem literalCount_pointerByte (n : Nat) (h : n ≤ maxRun) : literalCount (pointerByte n) = n := by
  rw [literalCount, pointerByte_toNat n h, Nat.add_sub_cancel]

theorem impliesDelim_pointerByte (n : Nat) (h : n < maxRun) : impliesDelim (pointerByte n) = true := by
  have hn := pointerByte_toNat n h.le
  simp only [impliesDelim, bne_iff_ne]
  intro he
  rw [he] at hn
  exact absurd (Nat.succ.inj hn) (Nat.ne_of_gt h)

theorem cobsDecode_nil : cobsDecode [] = .ok [] := rfl

/-- A full block decodes to its literals: no 0x00 is inserted after PTR_FULL. -/
theorem cobsDecode_full_block (c after : List Byte) (hc : c.length = maxRun) (hfree : delim ∉ c) :
    cobsDecode (ptrFull :: c ++ after) = prependPayload c (cobsDecode after) := by
  rw [cobsDecode_block ptrFull c after (by decide) hfree hc]
  simp [impliesDelim]

/-- A shorter block decodes to its literals, with a 0x00 after them unless the interior ends there. -/
theorem cobsDecode_short_block (r after : List Byte) (h : r.length < maxRun) (hfree : delim ∉ r) :
    cobsDecode (pointerByte r.length :: r ++ after) =
      prependPayload (r ++ if after.isEmpty then [] else [delim]) (cobsDecode after) := by
  rw [cobsDecode_block _ r after (pointerByte_ne_delim _ h.le) hfree (literalCount_pointerByte _ h.le).symm,
    impliesDelim_pointerByte _ h]
  cases after <;> rfl

/-- The blocks of a sub-run decode to the sub-run, with a 0x00 after it unless it is the last. By induction on the length of
the sub-run, one full block at a time. -/
theorem cobsDecode_runBlocks (r after : List Byte) (hfree : delim ∉ r) :
    cobsDecode (runBlocks r after.isEmpty ++ after) =
      prependPayload (r ++ if after.isEmpty then [] else [delim]) (cobsDecode after) := by
  induction hlen : r.length using Nat.strong_induction_on generalizing r with
  | _ n ih =>
    by_cases hshort : r.length < maxRun
    · rw [runBlocks_short r _ hshort, cobsDecode_short_block r after hshort hfree]
    · obtain ⟨c, rest, rfl, hc⟩ : ∃ c rest, r = c ++ rest ∧ c.length = maxRun :=
        ⟨r.take maxRun, r.drop maxRun, (List.take_append_drop _ _).symm,
          List.length_take_of_le (Nat.le_of_not_lt hshort)⟩
      obtain ⟨hcfree, hrest⟩ := not_or.mp (fun hm => hfree (List.mem_append.mpr hm))
      by_cases hmore : rest ≠ [] ∨ after.isEmpty = false
      · have hlt : rest.length < n := by
          simp only [List.length_append, hc, maxRun] at hlen
          omega
        rw [runBlocks_full_append c rest _ hc hmore, List.append_assoc, cobsDecode_full_block c _ hc hcfree,
          ih _ hlt rest hrest rfl, prependPayload_append, List.append_assoc]
      · obtain ⟨rfl, rfl⟩ : rest = [] ∧ after = [] := by simpa using hmore
        have h := cobsDecode_full_block c [] hc hcfree
        simpa [runBlocks_full_last c hc] using h

theorem runBlocks_ne_nil (r : List Byte) (isLast : Bool) : runBlocks r isLast ≠ [] := by
  cases r with
  | nil => simp [runBlocks]
  | cons b r => simp [runBlocks, chunkBlocks]

theorem interiorOf_ne_nil (runs : List (List Byte)) (h : runs ≠ []) : interiorOf runs ≠ [] := by
  match runs, h with
  | [r], _ => exact runBlocks_ne_nil r true
  | r :: q :: rs, _ => exact List.append_ne_nil_of_left_ne_nil (runBlocks_ne_nil r false) _

/-- An interior decodes to its sub-runs joined with one 0x00 between neighbours. -/
theorem cobsDecode_interiorOf (runs : List (List Byte)) (hne : runs ≠ []) (hfree : ∀ r ∈ runs, delim ∉ r) :
    cobsDecode (interiorOf runs) = .ok (List.intercalate [delim] runs) := by
  induction runs with
  | nil => exact absurd rfl hne
  | cons r rs ih =>
    obtain ⟨hr, hrs⟩ := List.forall_mem_cons.mp hfree
    cases rs with
    | nil =>
      have h := cobsDecode_runBlocks r [] hr
      simpa [interiorOf, cobsDecode_nil, prependPayload] using h
    | cons q rs =>
      have hq : q :: rs ≠ [] := List.cons_ne_nil q rs
      have hafter : (interiorOf (q :: rs)).isEmpty = false := by simpa using interiorOf_ne_nil _ hq
      have h := cobsDecode_runBlocks r (interiorOf (q :: rs)) hr
      rw [hafter, ih hq hrs] at h
      rw [interiorOf, h, List.intercalate_cons_cons]
      rfl

theorem interior_of_cobsEncode (p : List Byte) :
    ((cobsEncode p).drop 1).dropLast = interiorOf (splitRuns p) := by
  simp [cobsEncode]

/-! ### The obligations -/

/-- Settles O18: the interior decodes to the sub-runs joined, and the sub-runs joined are the payload. -/
theorem decodeOfEncodeIsThePayload : Obligations.DecodeOfEncodeIsThePayload := by
  intro p
  rw [interior_of_cobsEncode, cobsDecode_interiorOf _ (splitRuns_ne_nil p) (splitRuns_free p), intercalate_splitRuns]

/-- Settles O13: the interior is written out over the indices of the sub-runs, and n bytes 0x00 have n+1 empty sub-runs. -/
theorem cobsEncReturnsTheFrame : Obligations.CobsEncReturnsTheFrame := by
  refine ⟨fun p s => ?_, fun n s => ?_⟩
  · rw [exec_cobsEnc, cobsEncode, interiorOf_eq_zipIdx_flatMap _ 0]
    simp only [Nat.zero_add]
    rfl
  · have hruns : splitRuns (List.replicate n 0x00#8) = List.replicate (n + 1) [] := splitRuns_replicate_delim n
    rw [exec_cobsEnc, cobsEncode, hruns, interiorOf_replicate_nil]
    rfl

/-- Settles O14: `splitRuns` is the library's split at 0x00, which inverts the join. -/
theorem splitRunsPartitionThePayload : Obligations.SplitRunsPartitionThePayload := by
  intro s
  refine ⟨splitRuns_length s, splitRuns_free s, intercalate_splitRuns s, length_eq_of_splitRuns s, ?_⟩
  rintro runs hne hfree rfl
  exact (splitRuns_intercalate runs hne hfree).symm

end Sys2Proof.Laws

/-! The family 41_crc: what CRC.RESET, CRC.STEP, CRC.READ and CRC.FINISH do, and what two of them one after another do
(spec/41_crc.md R66, R67, R70, R71). The key fact is the one about CRC_MIX: read bit by bit, the equation
CRC_MIX(v, 00) = v leaves one bit of `v` free, so it has two solutions. -/

namespace Sys2Proof.Laws

open Sys2Proof.Machine

/-! ### Programs of one and of two operations -/

theorem execAll_singleton (i : Instr) (s : State) : execAll [i] s = exec i s := by
  rw [execAll]
  cases exec i s <;> rfl

theorem execAll_pair (i j : Instr) (s t : State) (h : exec i s = .next t) : execAll [i, j] s = exec j t := by
  rw [execAll_cons i [j] s t h, execAll_singleton]

theorem execAll_replicate_crcRead (n : Nat) (s : State) :
    execAll (List.replicate (n + 1) .crcRead) s = .next { s with result := some (.word s.crc) } := by
  induction n generalizing s with
  | zero => exact (execAll_singleton .crcRead s).trans (exec_crcRead s)
  | succ n ih => rw [List.replicate_succ, execAll_cons _ _ _ _ (exec_crcRead s), ih]

/-! ### The states that the byte 0x00 leaves unchanged (R67, R69) -/

/-- The CRC_MIX of R69 with the byte 0x00, one group per nibble of the new state `w`, the lowest first. Stages 4 and 5
leave the low nibble as stage 3 has made it and add it to bits above: those are the bits of `w` on the right. -/
theorem crcMix_default_zero_bits (v w : Word) (h : crcMix defaultCrcMix v 0x00#8 = w) :
    (w[0] = (v[8] ^^ v[12]) ∧ w[1] = (v[9] ^^ v[13]) ∧ w[2] = (v[10] ^^ v[14]) ∧ w[3] = (v[11] ^^ v[15])) ∧
    (w[4] = v[12] ∧ w[5] = (v[13] ^^ w[0]) ∧ w[6] = (v[14] ^^ w[1]) ∧ w[7] = (v[15] ^^ w[2])) ∧
    (w[8] = (v[0] ^^ w[3]) ∧ w[9] = (v[1] ^^ v[12]) ∧ w[10] = (v[2] ^^ v[13]) ∧ w[11] = (v[3] ^^ v[14])) ∧
    (w[12] = (v[4] ^^ w[0] ^^ v[15]) ∧ w[13] = (v[5] ^^ w[1]) ∧ w[14] = (v[6] ^^ w[2]) ∧
      w[15] = (v[7] ^^ w[3])) := by
  subst h
  and_intros <;> simp [crcMix, defaultCrcMix, xorShift, ror16, zext16]

/-- A state that the byte 0x00 leaves unchanged has bit 15 at every place where 0xF01F has a 1, and 0 elsewhere. Nibbles
0 and 2 make the bits of the top nibble equal, nibbles 1 and 3 make those of the low nibble equal to bit 15, and the
other two nibbles follow. -/
theorem getLsbD_of_crcMix_default_zero_eq_self (v : Word) (h : crcMix defaultCrcMix v 0x00#8 = v) (i : Nat)
    (hi : i < 16) : v.getLsbD i = (v[15] && (0xF01F#16).getLsbD i) := by
  obtain ⟨nibble0, nibble1, nibble2, nibble3⟩ := crcMix_default_zero_bits v v h
  clear h
  have top : v[12] = v[15] ∧ v[13] = v[15] ∧ v[14] = v[15] := by
    clear nibble1 nibble3
    grind
  have low : v[0] = v[15] ∧ v[1] = v[15] ∧ v[2] = v[15] ∧ v[3] = v[15] := by
    clear nibble0 nibble2
    grind
  have third : v[8] = false ∧ v[9] = false ∧ v[10] = false ∧ v[11] = false := by
    clear nibble1 nibble2 nibble3
    grind
  have second : v[4] = v[15] ∧ v[5] = false ∧ v[6] = false ∧ v[7] = false := by
    simpa [top, low] using nibble1
  interval_cases i <;> simp [top, third, low, second]

/-- The fixed points of the byte 0x00 under the CRC_MIX of R69 (R67). -/
theorem crcMix_default_zero_eq_self_iff (v : Word) :
    crcMix defaultCrcMix v 0x00#8 = v ↔ v = 0x0000#16 ∨ v = 0xF01F#16 := by
  constructor
  · intro h
    have hbits := getLsbD_of_crcMix_default_zero_eq_self v h
    cases hv : v[15] with
    | false => exact .inl (BitVec.eq_of_getLsbD_eq fun i hi => by simp [hbits i hi, hv])
    | true => exact .inr (BitVec.eq_of_getLsbD_eq fun i hi => by simp [hbits i hi, hv])
  · rintro (rfl | rfl) <;> decide

/-- CRC.STEP leaves `crc` unchanged exactly when CRC_MIX does. -/
theorem exec_crcStep_keeps_crc_iff (b : Byte) (s : State) :
    exec (.crcStep b) s = .next { s with result := none } ↔ crcMix s.config.crcMix s.crc b = s.crc := by
  rw [exec_crcStep]
  constructor
  · intro h
    exact congrArg State.crc (Host.Outcome.next.inj h)
  · intro h
    rw [h]

/-! ### The obligations -/

/-- Settles O3: the step is `exec_crcStep`, and the fixed points are those of CRC_MIX. -/
theorem crcStepFoldsOneByte : Obligations.CrcStepFoldsOneByte := by
  refine fun b s => ⟨exec_crcStep b s, fun hmix => ?_⟩
  rw [exec_crcStep_keeps_crc_iff, hmix, crcMix_default_zero_eq_self_iff]

/-- Settles O4: CRC.READ writes the result only, and neither CRC.READ nor CRC.STEP reads that. -/
theorem crcReadReturnsStateUnchanged : Obligations.CrcReadReturnsStateUnchanged := by
  refine fun s => ⟨exec_crcRead s, fun n => execAll_replicate_crcRead n s, fun b => ?_⟩
  rw [execAll_pair _ _ _ _ (exec_crcRead s), exec_crcStep, exec_crcStep]

/-- Settles O2: CRC.RESET writes the same CRC_INIT whatever `crc` was. -/
theorem crcResetSetsInitialConstant : Obligations.CrcResetSetsInitialConstant := by
  refine fun s => ⟨exec_crcReset s, ?_, fun hcrc => ?_⟩
  · rw [execAll_pair _ _ _ _ (exec_crcReset s), exec_crcReset, exec_crcReset]
  · rw [exec_crcReset, ← hcrc]

/-- Settles O5: the operation after CRC.FINISH finds CRC_INIT in `crc`. -/
theorem crcFinishReturnsThenResets : Obligations.CrcFinishReturnsThenResets := by
  refine fun s => ⟨exec_crcFinish s, ?_, fun b => ?_⟩
  · rw [execAll_pair _ _ _ _ (exec_crcFinish s), exec_crcFinish]
  · rw [execAll_pair _ _ _ _ (exec_crcFinish s), exec_crcStep]

end Sys2Proof.Laws

/-! The family 42_assembler: FA.CHUNK with TAIL_MAX = `none`, whole (spec/42_assembler.md R77, R78). The key fact is what
one round of the extraction loop does to a `tail` that begins with a delimited stretch; the loop then follows the cut of
`tail` at its delimiters, one stretch a round. -/

namespace Sys2Proof.Laws

open Sys2Proof.Machine

/-! ### The extraction loop (R77) -/

/-- One round: the first delimited stretch leaves `tail`, with its delimiter, and gives its events. -/
theorem extractLoop_delimited (n : Nat) (g rest : List Byte) (s : State) (hs : s.tail = g ++ delim :: rest)
    (hg : delim ∉ g) :
    extractLoop (n + 1) s = extractLoop n { s with tail := rest, out := s.out ++ stretchEvents g } := by
  have hfind : findByte delim s.tail = some g.length := hs ▸ findByte_append delim g rest hg
  have hframed : s.tail.take g.length = g := by simp [hs]
  have hrest : s.tail.drop (g.length + 1) = rest := by simp [hs]
  simp only [extractLoop, hfind, hframed, hrest, process_eq]
  rfl

theorem countByte_delimited (g rest : List Byte) (h : delim ∉ g) :
    countByte delim (g ++ delim :: rest) = countByte delim rest + 1 := by
  simp [(countByte_eq_zero delim g).mpr h, countByte]

/-- With a round for each delimiter in `tail`, the loop processes every stretch of the cut and leaves the open one. -/
theorem extractLoop_eq_cutAtDelims (rounds : Nat) (s : State) (h : countByte delim s.tail = rounds) :
    extractLoop rounds s =
      { s with
        tail := (cutAtDelims s.tail).2
        out := s.out ++ (cutAtDelims s.tail).1.flatMap stretchEvents } := by
  induction rounds generalizing s with
  | zero =>
    have hfree : delim ∉ s.tail := (countByte_eq_zero delim s.tail).mp h
    simp [extractLoop, cutAtDelims_of_not_mem s.tail hfree]
  | succ n ih =>
    have hmem : delim ∈ s.tail := by
      by_contra hfree
      rw [(countByte_eq_zero delim s.tail).mpr hfree] at h
      cases h
    obtain ⟨g, rest, hs, hg⟩ := List.eq_append_cons_of_mem hmem
    have hrounds : countByte delim rest = n := by
      rw [hs, countByte_delimited g rest hg] at h
      exact Nat.succ.inj h
    rw [extractLoop_delimited n g rest s hs hg, ih _ hrounds, hs, cutAtDelims_append g rest hg]
    simp

theorem assemble_of_tailMax_none (chunk : List Byte) (s : State) (h : s.config.tailMax = none) :
    assemble chunk s =
      { s with
        tail := (cutAtDelims (s.tail ++ chunk)).2
        out := s.out ++ (cutAtDelims (s.tail ++ chunk)).1.flatMap stretchEvents } := by
  rw [assemble, h]
  exact extractLoop_eq_cutAtDelims _ (s.setTail (s.tail ++ chunk)) rfl

/-! ### The causes a stretch can fail with (R78) -/

theorem prependPayload_eq_err_iff (r : List Byte) (d : Decoded) (c : Cause) :
    prependPayload r d = .err c ↔ d = .err c := by
  cases d <;> simp [prependPayload]

/-- Without a 0x00 in the input, no pointer and no literal is 0x00: the only check that can fail is the length's. -/
theorem decodeBlocks_err_of_not_mem (fuel : Nat) (s : List Byte) (c : Cause) (hfree : delim ∉ s)
    (h : decodeBlocks fuel s = .err c) : c = .overrun := by
  induction fuel generalizing s with
  | zero => cases h
  | succ n ih =>
    cases s with
    | nil => cases h
    | cons p s =>
      obtain ⟨hp, hs⟩ := List.ne_and_not_mem_of_not_mem_cons hfree
      have hliterals : delim ∉ s.take (literalCount p) := mt List.mem_of_mem_take hs
      have hafter : delim ∉ s.drop (literalCount p) := mt List.mem_of_mem_drop hs
      simp only [decodeBlocks, hp.symm, hliterals, if_false] at h
      by_cases hshort : s.length < literalCount p
      · rw [if_pos hshort] at h
        cases h
        rfl
      · rw [if_neg hshort, prependPayload_eq_err_iff] at h
        exact ih _ hafter h

/-! ### The obligation -/

/-- Settles O27: the loop follows the cut of `tail`, and a stretch of the cut holds no 0x00. -/
theorem faChunkProcessesEveryStretch : Obligations.FaChunkProcessesEveryStretch := by
  refine ⟨fun chunk s hnone => ?_, fun g hfree c => decodeBlocks_err_of_not_mem g.length g c hfree⟩
  rw [exec_faChunk, assemble_of_tailMax_none chunk s hnone]

end Sys2Proof.Laws

/-! The family 60_exceptions: the one cause COBS.DEC reports (spec/60_exceptions.md R95), a failing frame inside FA.CHUNK
(R94), and COBS.DEC as an operation (R93). The key facts are that whole blocks in front of an input do not change the
cause it fails with, that FA.CHUNK may be cut after a delimiter, and that no operation reads the last result. -/

namespace Sys2Proof.Laws

open Sys2Proof.Machine

/-! ### The first offence of an input (R95) -/

/-- What stands at the cursor when COBS.DEC stops with a cause (R59): a 0x00 as pointer byte, or a block that owes literals
where the next byte is 0x00 or the input ends. -/
inductive Offends : Cause → List Byte → Prop
  | zeroPointer (rest : List Byte) : Offends .zeroPointer (delim :: rest)
  | zeroLiteral (p : Byte) (literals rest : List Byte) (hp : p ≠ delim) (hfree : delim ∉ literals)
      (howed : literals.length + 1 < p.toNat) : Offends .zeroLiteral (p :: literals ++ delim :: rest)
  | overrun (p : Byte) (literals : List Byte) (hp : p ≠ delim) (hfree : delim ∉ literals)
      (howed : literals.length + 1 < p.toNat) : Offends .overrun (p :: literals)

theorem lt_literalCount_iff (n : Nat) (p : Byte) : n < literalCount p ↔ n + 1 < p.toNat := Nat.lt_sub_iff_add_lt

theorem block_wf_iff (b : Block) :
    b.wf = true ↔ b.pointer ≠ delim ∧ b.literals.length = literalCount b.pointer ∧ delim ∉ b.literals := by
  simp [Block.wf, and_assoc]

/-- COBS.DEC stops at an offence with its cause, whatever follows. -/
theorem cobsDecode_of_offends (c : Cause) (s : List Byte) (h : Offends c s) : cobsDecode s = .err c := by
  cases h with
  | zeroPointer rest => simp [cobsDecode, decodeBlocks]
  | zeroLiteral p literals rest hp hfree howed =>
    have hlt := (lt_literalCount_iff _ p).mpr howed
    have hmem : delim ∈ (literals ++ delim :: rest).take (literalCount p) := by
      obtain ⟨k, hk⟩ := Nat.exists_eq_add_of_lt hlt
      rw [hk, Nat.add_assoc, List.take_length_add_append]
      simp
    simp [cobsDecode, decodeBlocks, hp, hmem]
  | overrun p literals hp hfree howed =>
    have hlt := (lt_literalCount_iff _ p).mpr howed
    have hmem : delim ∉ literals.take (literalCount p) := mt List.mem_of_mem_take hfree
    simp [cobsDecode, decodeBlocks, hp, hmem, hlt]

/-- An input that has not ended offends at its cursor, or begins with a whole block. -/
theorem offends_or_block (p : Byte) (s : List Byte) :
    (∃ c, Offends c (p :: s)) ∨
      ∃ (b : Block) (after : List Byte), b.wf = true ∧ p :: s = b.pointer :: b.literals ++ after := by
  by_cases hp : p = delim
  · rw [hp]
    exact .inl ⟨_, .zeroPointer s⟩
  by_cases hmem : delim ∈ s.take (literalCount p)
  · obtain ⟨literals, rest, hs, hfree⟩ := List.eq_append_cons_of_mem hmem
    have hlt : literals.length < literalCount p := by
      have hlen := congrArg List.length hs
      simp only [List.length_take, List.length_append, List.length_cons] at hlen
      omega
    refine .inl ⟨.zeroLiteral, ?_⟩
    rw [← List.take_append_drop (literalCount p) s, hs, List.append_assoc]
    exact .zeroLiteral p literals _ hp hfree ((lt_literalCount_iff _ p).mp hlt)
  by_cases hshort : s.length < literalCount p
  · rw [List.take_of_length_le hshort.le] at hmem
    exact .inl ⟨_, .overrun p s hp hmem ((lt_literalCount_iff _ p).mp hshort)⟩
  · refine .inr ⟨⟨p, s.take (literalCount p)⟩, s.drop (literalCount p), (block_wf_iff _).mpr ⟨hp, ?_, hmem⟩, ?_⟩
    · exact List.length_take_of_le (Nat.le_of_not_lt hshort)
    · simp

theorem chainBytes_cons (b : Block) (bs : List Block) :
    chainBytes (b :: bs) = b.pointer :: b.literals ++ chainBytes bs := rfl

/-- A whole block in front of an input does not change the cause it fails with. -/
theorem cobsDecode_block_append_eq_err_iff (b : Block) (after : List Byte) (c : Cause) (hb : b.wf = true) :
    cobsDecode (b.pointer :: b.literals ++ after) = .err c ↔ cobsDecode after = .err c := by
  obtain ⟨hp, hlen, hfree⟩ := (block_wf_iff b).mp hb
  rw [cobsDecode_block b.pointer b.literals after hp hfree hlen, prependPayload_eq_err_iff]

/-- COBS.DEC fails with a cause exactly when, after a chain of whole blocks, the input offends with that cause. -/
theorem cobsDecode_eq_err_iff (s : List Byte) (c : Cause) :
    cobsDecode s = .err c ↔
      ∃ (bs : List Block) (u : List Byte), (∀ b ∈ bs, b.wf = true) ∧ s = chainBytes bs ++ u ∧ Offends c u := by
  constructor
  · intro h
    induction hn : s.length using Nat.strong_induction_on generalizing s with
    | _ n ih =>
      cases s with
      | nil => cases h
      | cons p s =>
        obtain ⟨c', hc'⟩ | ⟨b, after, hb, hs⟩ := offends_or_block p s
        · cases (cobsDecode_of_offends c' _ hc').symm.trans h
          exact ⟨[], p :: s, by simp, rfl, hc'⟩
        · have hlt : after.length < n := by simp [← hn, hs]
          rw [hs, cobsDecode_block_append_eq_err_iff b after c hb] at h
          obtain ⟨bs, u, hbs, hafter, hu⟩ := ih _ hlt after h rfl
          refine ⟨b :: bs, u, List.forall_mem_cons.mpr ⟨hb, hbs⟩, ?_, hu⟩
          rw [hs, hafter, chainBytes_cons, List.append_assoc]
  · rintro ⟨bs, u, hbs, rfl, hu⟩
    induction bs with
    | nil => exact cobsDecode_of_offends c u hu
    | cons b bs ih =>
      obtain ⟨hb, hbs⟩ := List.forall_mem_cons.mp hbs
      rw [chainBytes_cons, List.append_assoc, cobsDecode_block_append_eq_err_iff b _ c hb]
      exact ih hbs

/-! ### A delimited stretch inside FA.CHUNK (R94) -/

/-- FEED_N on bytes without a delimiter that find room: they join `tail` (R83). -/
theorem chunkBounded_of_not_mem (n : Nat) (g : List Byte) (s : State) (hfree : delim ∉ g) (hd : s.drop = false)
    (hn : (s.tail ++ g).length ≤ n) : chunkBounded n g s = s.setTail (s.tail ++ g) := by
  induction g generalizing s with
  | nil => simp [State.setTail]
  | cons b g ih =>
    obtain ⟨hb, hg⟩ := List.ne_and_not_mem_of_not_mem_cons hfree
    have hroom : s.tail.length ≠ n := by
      simp only [List.length_append, List.length_cons] at hn
      omega
    rw [chunkBounded_cons, feedBounded_append n b s hb.symm hd hroom,
      ih (s.setTail (s.tail ++ [b])) hg hd (by simpa using hn)]
    simp [State.setTail]

/-- FA.CHUNK may be cut after the delimiter that ends a stretch within TAIL_MAX: the stretch gives its events, and the rest
is handled from an empty `tail`. -/
theorem assemble_delimited (g rest : List Byte) (s : State) (hfree : delim ∉ s.tail ++ g) (hd : s.drop = false)
    (hn : ∀ n, s.config.tailMax = some n → (s.tail ++ g).length ≤ n) :
    assemble (g ++ delim :: rest) s =
      assemble rest { s with tail := [], out := s.out ++ stretchEvents (s.tail ++ g) } := by
  cases hmax : s.config.tailMax with
  | none =>
    rw [assemble_of_tailMax_none _ s hmax, assemble_of_tailMax_none rest, ← List.append_assoc,
      cutAtDelims_append (s.tail ++ g) rest hfree]
    · simp
    · exact hmax
  | some n =>
    have hg : delim ∉ g := mt (List.mem_append_right s.tail) hfree
    simp only [assemble, hmax]
    rw [chunkBounded_append, chunkBounded_of_not_mem n g s hg hd (hn n hmax), chunkBounded_cons,
      feedBounded_delim n (s.setTail (s.tail ++ g)) hd]
    rfl

theorem stretchEvents_of_err (g : List Byte) (c : Cause) (h : cobsDecode g = .err c) :
    stretchEvents g = [.frameError (.malformed c)] := by
  cases g with
  | nil => cases h
  | cons b g => simp [stretchEvents, h]

/-! ### No operation reads the last result (R93) -/

theorem feedBounded_returns (n : Nat) (b : Byte) (r : Option Result) (s : State) :
    feedBounded n b (s.returns r) = (feedBounded n b s).returns r := by
  simp only [feedBounded, process_eq, apply_ite (State.returns r)]
  rfl

theorem chunkBounded_returns (n : Nat) (c : List Byte) (r : Option Result) (s : State) :
    chunkBounded n c (s.returns r) = (chunkBounded n c s).returns r :=
  List.foldl_hom (State.returns r) fun t b => feedBounded_returns n b r t

theorem assemble_returns (c : List Byte) (r : Option Result) (s : State) :
    assemble c (s.returns r) = (assemble c s).returns r := by
  cases hmax : s.config.tailMax with
  | none =>
    rw [assemble_of_tailMax_none c s hmax, assemble_of_tailMax_none c (s.returns r) hmax]
    rfl
  | some n =>
    simp only [assemble, returns_config, hmax]
    exact chunkBounded_returns n c r s

/-- An operation does not read what the one before it returned: each writes `result` anew. -/
theorem exec_returns (i : Instr) (r : Option Result) (s : State) : exec i (s.returns r) = exec i s := by
  cases i with
  | crcReset | crcStep | crcRead | crcFinish | cobsEnc | cobsDec => rfl
  | faChunk c =>
    rw [exec_faChunk, exec_faChunk, assemble_returns]
    rfl

/-! ### The obligations -/

/-- Settles O21: each cause by what stands at the cursor where the chain of whole blocks ends. -/
theorem decodeReportsTheFirstOffence : Obligations.DecodeReportsTheFirstOffence := by
  intro s
  simp only [cobsDecode_eq_err_iff]
  refine ⟨⟨?_, ?_⟩, ⟨?_, ?_⟩, ⟨?_, ?_⟩⟩
  · rintro ⟨bs, _, hbs, hs, hu⟩
    cases hu with
    | zeroPointer rest => exact ⟨bs, rest, hbs, hs⟩
  · rintro ⟨bs, rest, hbs, hs⟩
    exact ⟨bs, _, hbs, hs, .zeroPointer rest⟩
  · rintro ⟨bs, _, hbs, hs, hu⟩
    cases hu with
    | zeroLiteral p literals rest hp hfree howed =>
      exact ⟨bs, p, literals, rest, hbs, hp, hfree, howed, by rw [hs, List.append_assoc]; rfl⟩
  · rintro ⟨bs, p, literals, rest, hbs, hp, hfree, howed, hs⟩
    exact ⟨bs, _, hbs, by rw [hs, List.append_assoc]; rfl, .zeroLiteral p literals rest hp hfree howed⟩
  · rintro ⟨bs, _, hbs, hs, hu⟩
    cases hu with
    | overrun p literals hp hfree howed => exact ⟨bs, p, literals, hbs, hp, hfree, howed, hs⟩
  · rintro ⟨bs, p, literals, hbs, hp, hfree, howed, hs⟩
    exact ⟨bs, _, hbs, hs, .overrun p literals hp hfree howed⟩

/-- Settles O36: the chunk is cut after the delimiter of the stretch, and FA.CHUNK only appends to `out` after that. -/
theorem badFrameIsIsolated : Obligations.BadFrameIsIsolated := by
  intro g rest s hfree hd hn
  have hcut : exec (.faChunk (g ++ delim :: rest)) s =
      exec (.faChunk rest) { s with tail := [], out := s.out ++ stretchEvents (s.tail ++ g) } := by
    rw [exec_faChunk, exec_faChunk, assemble_delimited g rest s hfree hd hn]
  refine ⟨hcut, fun c hc => ?_⟩
  rw [stretchEvents_of_err _ c hc] at hcut
  obtain ⟨_, _, es, hrest, -⟩ :=
    assemble_change rest { s with tail := [], out := s.out ++ [.frameError (.malformed c)] }
  exact ⟨hcut, _, es, hcut.trans (exec_faChunk rest _), rfl, congrArg State.out hrest⟩

/-- Settles O19: COBS.DEC writes `result` only, and no operation reads that. -/
theorem cobsDecReturnsItsDecode : Obligations.CobsDecReturnsItsDecode := by
  refine fun x s => ⟨exec_cobsDec x s, fun c hc => ?_, fun i => ?_⟩
  · rw [exec_cobsDec, hc]
  · rw [execAll_pair _ i s _ (exec_cobsDec x s)]
    exact exec_returns i _ s

end Sys2Proof.Laws

/-! The whole machine, one operation at a time (spec/60_exceptions.md section 4, spec/10_state.md sections 5 to 7). The key
facts are two: an operation either writes at most `crc` and the result or is FA.CHUNK, and FA.CHUNK is a function of the
parameters, `tail` and `drop` whose events are appended to whatever `out` holds. -/

namespace Sys2Proof.Laws

open Sys2Proof.Machine

/-! ### What one operation can do -/

/-- An operation of the other two units writes at most `crc` and the result. -/
theorem exec_of_not_assembler (i : Instr) (s : State) (h : isAssemblerOp i = false) :
    ∃ (v : Word) (r : Option Result), exec i s = .next { s with crc := v, result := r } := by
  cases i with
  | crcReset => exact ⟨_, _, exec_crcReset s⟩
  | crcStep b => exact ⟨_, _, exec_crcStep b s⟩
  | crcRead => exact ⟨s.crc, _, exec_crcRead s⟩
  | crcFinish => exact ⟨_, _, exec_crcFinish s⟩
  | cobsEnc p => exact ⟨s.crc, _, exec_cobsEnc p s⟩
  | cobsDec x => exact ⟨s.crc, _, exec_cobsDec x s⟩
  | faChunk c => cases h

/-- Every operation completes; it leaves the parameters and the port alone, and appends to `out` events without an empty
payload, none unless it is FA.CHUNK (R15, R20, R102). -/
theorem exec_frame (i : Instr) (s : State) :
    ∃ (t : State) (es : List Event), exec i s = .next t ∧ t.config = s.config ∧ t.beats = s.beats ∧
      t.out = s.out ++ es ∧ (∀ p, Event.payload p ∈ es → p ≠ []) ∧ (isAssemblerOp i = false → es = []) := by
  cases h : isAssemblerOp i with
  | false =>
    obtain ⟨v, r, he⟩ := exec_of_not_assembler i s h
    exact ⟨_, [], he, by simp⟩
  | true =>
    cases i with
    | faChunk c =>
      obtain ⟨tail, drop, es, ha, hes⟩ := assemble_change c s
      refine ⟨_, es, exec_faChunk c s, ?_⟩
      simpa [ha] using hes
    | crcReset | crcStep | crcRead | crcFinish | cobsEnc | cobsDec => cases h

theorem assemble_config (c : List Byte) (s : State) : (assemble c s).config = s.config := by
  obtain ⟨_, _, _, h, -⟩ := assemble_change c s
  rw [h]

/-! ### FA.CHUNK beside the rest of the state (R16) -/

/-- The state `s` with the assembler's elements of `t`, whose events stand after those of `s`. -/
def overlay (s t : State) : State := { s with tail := t.tail, drop := t.drop, out := s.out ++ t.out }

/-- The assembler of `s` alone: its parameters, `tail` and `drop`, and an empty log. -/
def bareAssembler (s : State) : State := { State.resetWith s.config with tail := s.tail, drop := s.drop }

theorem overlay_bareAssembler (s : State) : overlay s (bareAssembler s) = s := by
  simp [overlay, bareAssembler, State.resetWith]

theorem feedBounded_overlay (n : Nat) (b : Byte) (s t : State) :
    feedBounded n b (overlay s t) = overlay s (feedBounded n b t) := by
  simp only [feedBounded, process_eq, apply_ite (overlay s)]
  simp [overlay, State.setTail, State.setDrop, State.reportError, State.emit]

theorem assemble_overlay (c : List Byte) (s t : State) (h : t.config = s.config) :
    assemble c (overlay s t) = overlay s (assemble c t) := by
  cases hmax : s.config.tailMax with
  | none =>
    rw [assemble_of_tailMax_none c t (h ▸ hmax), assemble_of_tailMax_none c (overlay s t) hmax]
    simp [overlay]
  | some n =>
    have ho : (overlay s t).config.tailMax = some n := hmax
    simp only [assemble, ho, h, hmax]
    exact List.foldl_hom (overlay s) fun t b => feedBounded_overlay n b s t

/-- FA.CHUNK reads the parameters, `tail` and `drop`, and nothing else. -/
theorem assemble_eq_overlay (c : List Byte) (s : State) :
    assemble c s = overlay s (assemble c (bareAssembler s)) := by
  rw [← assemble_overlay c s (bareAssembler s) rfl, overlay_bareAssembler]

theorem assemble_setBeats (c : List Byte) (ws : List Word) (s : State) :
    assemble c (s.setBeats ws) = (assemble c s).setBeats ws := by
  rw [assemble_eq_overlay c s, assemble_eq_overlay c (s.setBeats ws)]
  rfl

/-- An operation does not look at the beats that wait behind it. -/
theorem exec_setBeats (i : Instr) (ws : List Word) (s t : State) (h : exec i s = .next t) :
    exec i (s.setBeats ws) = .next (t.setBeats ws) := by
  cases i with
  | crcReset | crcStep | crcRead | crcFinish | cobsEnc | cobsDec =>
    cases h
    rfl
  | faChunk c =>
    cases h
    rw [exec_faChunk, assemble_setBeats]
    rfl

/-! ### Operations of different units -/

/-- What an operation of the Checksum Engine writes depends on the parameters and `crc` alone. -/
theorem exec_checksum (i : Instr) (s : State) (h : isChecksumOp i = true) :
    ∃ (v : Word) (r : Option Result), ∀ t : State, t.config = s.config → t.crc = s.crc →
      exec i t = .next ((t.setCrc v).returns r) := by
  cases i with
  | crcReset => exact ⟨s.config.crcInit, none, fun t hc _ => hc ▸ exec_crcReset t⟩
  | crcStep b =>
    exact ⟨crcMix s.config.crcMix s.crc b, none, fun t hc hv => hc ▸ hv ▸ exec_crcStep b t⟩
  | crcRead => exact ⟨s.crc, some (.word s.crc), fun t _ hv => hv ▸ exec_crcRead t⟩
  | crcFinish => exact ⟨s.config.crcInit, some (.word s.crc), fun t hc hv => hc ▸ hv ▸ exec_crcFinish t⟩
  | cobsEnc | cobsDec | faChunk => cases h

theorem isAssemblerOp_of_checksum (i : Instr) (h : isChecksumOp i = true) : isAssemblerOp i = false := by
  cases i with
  | crcReset | crcStep | crcRead | crcFinish | cobsEnc | cobsDec => rfl
  | faChunk => cases h

/-- An operation of the codec writes a result that no state element enters. -/
theorem exec_codec (i : Instr) (hc : isChecksumOp i = false) (ha : isAssemblerOp i = false) :
    ∃ r : Option Result, ∀ t : State, exec i t = .next (t.returns r) := by
  cases i with
  | cobsEnc p => exact ⟨_, exec_cobsEnc p⟩
  | cobsDec x => exact ⟨_, exec_cobsDec x⟩
  | crcReset | crcStep | crcRead | crcFinish => cases hc
  | faChunk => cases ha

/-- Two operations leave the same state but for the result, and return the same, in either order. -/
def OpsCommute (i j : Instr) (s : State) : Prop :=
  ∃ a b t u, exec i s = .next a ∧ exec j a = .next b ∧ exec j s = .next t ∧ exec i t = .next u ∧
    { b with result := none } = { u with result := none } ∧ a.result = u.result ∧ b.result = t.result

theorem OpsCommute.symm {i j : Instr} {s : State} (h : OpsCommute i j s) : OpsCommute j i s := by
  obtain ⟨a, b, t, u, hia, hjb, hjt, hiu, hbu, hau, hbt⟩ := h
  exact ⟨t, u, a, b, hjt, hiu, hia, hjb, hbu.symm, hbt.symm, hau.symm⟩

theorem commute_checksum_other (i j : Instr) (s : State) (hi : isChecksumOp i = true) (hj : isChecksumOp j = false) :
    OpsCommute i j s := by
  obtain ⟨v, r, hexec⟩ := exec_checksum i s hi
  obtain ⟨t, ht, hcrc, hset⟩ := exec_frames_crc j s hj
  obtain ⟨_, _, ht', hconfig, -⟩ := exec_frame j s
  obtain rfl := Host.Outcome.next.inj (ht.symm.trans ht')
  refine ⟨_, t.setCrc v, t, _, hexec s rfl rfl, ?_, ht, hexec t hconfig hcrc, rfl, rfl, rfl⟩
  rw [exec_returns, hset]

theorem commute_codec_any (i j : Instr) (s : State) (hc : isChecksumOp i = false) (ha : isAssemblerOp i = false) :
    OpsCommute i j s := by
  obtain ⟨r, hexec⟩ := exec_codec i hc ha
  obtain ⟨t, _, ht, -⟩ := exec_frame j s
  refine ⟨_, t, t, _, hexec s, ?_, ht, hexec t, rfl, rfl, rfl⟩
  rw [exec_returns, ht]

/-! ### The obligations -/

/-- Settles O41: completion is part of what every operation does. -/
theorem everyOperationCompletes : Obligations.EveryOperationCompletes := by
  intro i s
  obtain ⟨t, _, ht, -, hbeats, -⟩ := exec_frame i s
  exact ⟨t, ht, hbeats⟩

/-- Settles O43: the events are those of `exec_frame`, and reset starts an empty log. -/
theorem outputLogIsAppendOnly : Obligations.OutputLogIsAppendOnly := by
  refine ⟨fun i s => ?_, resetEvent_out⟩
  obtain ⟨t, es, ht, -, -, hrest⟩ := exec_frame i s
  exact ⟨t, es, ht, hrest⟩

/-- Settles O40: FA.CHUNK is no operation of the Checksum Engine. -/
theorem assemblerIgnoresTheChecksum : Obligations.AssemblerIgnoresTheChecksum := by
  intro chunk s v
  obtain ⟨t, ht, -, hset⟩ := exec_frames_crc (.faChunk chunk) s rfl
  exact ⟨t, ht, hset v⟩

/-- Settles O42: of two operations of different units one is the Checksum Engine's or the codec's. -/
theorem unitsCommute : Obligations.UnitsCommute := by
  intro i j s hunits
  show OpsCommute i j s
  cases hi : isChecksumOp i <;> cases hj : isChecksumOp j
  case true.false => exact commute_checksum_other i j s hi hj
  case false.true => exact (commute_checksum_other j i s hj hi).symm
  case true.true =>
    simp [hi, hj, isAssemblerOp_of_checksum] at hunits
  case false.false =>
    have hdiff : isAssemblerOp i ≠ isAssemblerOp j := hunits.resolve_left (by simp [hi, hj])
    cases ha : isAssemblerOp i with
    | false => exact commute_codec_any i j s hi ha
    | true =>
      have hb : isAssemblerOp j = false := by simpa [ha] using hdiff
      exact (commute_codec_any j i s hj hb).symm

end Sys2Proof.Laws

/-! The command port (spec/30_encoding.md Part B, spec/20_memory.md section 5). The key facts: the decoder's check of one
beat and the legality of WellFormed.lean ask the same form of it; and an operand that is still open is a row of data beats
of one sequence operation, over which the decoder only collects the bytes. -/

namespace Sys2Proof.Laws

open Sys2Proof.Machine

/-! ### The form R48 asks of one beat -/

/-- What R48 asks of a beat of operation `op`, besides its number: reserved bits clear, a beat without a byte final and with
`data` 0x00, and a beat of an operation without a sequence operand final, with a byte exactly for CRC.STEP. -/
structure BeatForm (op : Opcode) (b : Beat) : Prop where
  rsv : b.rsv = 0#2
  empty : b.nd = true → b.last = true ∧ b.data = 0#8
  single : isSeqOp op = false → b.last = true ∧ (b.nd = false ↔ op = .crcStep)

theorem beatForm_iff (op : Opcode) (b : Beat) :
    BeatForm op b ↔ b.rsv = 0#2 ∧ (b.nd = true → b.last = true ∧ b.data = 0#8) ∧
      (isSeqOp op = false → b.last = true ∧ (b.nd = false ↔ op = .crcStep)) :=
  ⟨fun h => ⟨h.rsv, h.empty, h.single⟩, fun ⟨h₁, h₂, h₃⟩ => ⟨h₁, h₂, h₃⟩⟩

theorem number_injective (op op' : Opcode) (h : op.number = op'.number) : op = op' := by
  have hop := congrArg opcodeOf h
  simpa using hop

/-- A beat with the number of `op` passes the check as `op` when it has the form, and as nothing else. -/
theorem checkBeat_of_number (op op' : Opcode) (b : Beat) (h : b.op = op.number) :
    checkBeat b = .ok op' ↔ op = op' ∧ BeatForm op b := by
  obtain ⟨n, rsv, nd, last, data⟩ := b
  obtain rfl : n = op.number := h
  by_cases hrsv : rsv = 0#2
  case neg => simp [checkBeat, beatForm_iff, hrsv]
  simp only [checkBeat, opcodeOf_number, beatForm_iff, hrsv]
  cases nd with
  | false => cases op <;> cases last <;> simp [isSeqOp]
  | true => by_cases hdata : data = 0#8 <;> cases op <;> cases last <;> simp [isSeqOp, hdata]

theorem checkBeat_eq_ok_iff (op : Opcode) (b : Beat) : checkBeat b = .ok op ↔ b.op = op.number ∧ BeatForm op b := by
  cases hop : opcodeOf b.op with
  | none =>
    have hn : b.op ≠ op.number := by
      intro hn
      simp [hn] at hop
    simp [checkBeat, hop, hn]
  | some op' =>
    have hn := number_of_opcodeOf b.op op' hop
    rw [checkBeat_of_number op' op b hn]
    constructor
    · rintro ⟨rfl, hform⟩
      exact ⟨hn, hform⟩
    · rintro ⟨hop', hform⟩
      obtain rfl := number_injective op' op (hn.symm.trans hop')
      exact ⟨rfl, hform⟩

theorem opAssigned_iff (b : Beat) : b.opAssigned = true ↔ ∃ op : Opcode, b.op = op.number := by
  constructor
  · intro h
    have hsome : ∀ n : BitVec 4, n.toNat ≤ 6 → (opcodeOf n).isSome := by decide
    obtain ⟨op, hop⟩ := Option.isSome_iff_exists.mp (hsome b.op (of_decide_eq_true h))
    exact ⟨op, number_of_opcodeOf b.op op hop⟩
  · rintro ⟨op, hop⟩
    rw [Beat.opAssigned, hop]
    cases op <;> rfl

theorem wf_of_number (op : Opcode) (b : Beat) (h : b.op = op.number) : b.wf = true ↔ BeatForm op b := by
  have hassigned := (opAssigned_iff b).mpr ⟨op, h⟩
  obtain ⟨n, rsv, nd, last, data⟩ := b
  obtain rfl : n = op.number := h
  have hrsv : rsv.toNat = 0 ↔ rsv = 0#2 := BitVec.toNat_eq (y := 0#2) |>.symm
  have hdata : data.toNat = 0 ↔ data = 0#8 := BitVec.toNat_eq (y := 0#8) |>.symm
  simp only [beatForm_iff, Beat.wf, hassigned, Beat.rsvClear, Beat.emptyFormOk,
    Beat.noOperandOk, Beat.byteOperandOk]
  cases op <;> cases nd <;> cases last <;> simp [isSeqOp, Opcode.number, hrsv, hdata]

/-- The decoder's check passes exactly the beats that are legal by themselves. -/
theorem wf_iff_checkBeat (b : Beat) : b.wf = true ↔ ∃ op, checkBeat b = .ok op := by
  simp only [checkBeat_eq_ok_iff]
  constructor
  · intro h
    have hassigned : b.opAssigned = true := by
      simp only [Beat.wf, Bool.and_eq_true] at h
      obtain ⟨⟨⟨⟨hassigned, -⟩, -⟩, -⟩, -⟩ := h
      exact hassigned
    obtain ⟨op, hop⟩ := (opAssigned_iff b).mp hassigned
    exact ⟨op, hop, (wf_of_number op b hop).mp h⟩
  · rintro ⟨op, hop, hform⟩
    exact (wf_of_number op b hop).mpr hform

/-- The word of a legal beat is the one its operation, its two flags and its byte give. -/
theorem eq_beatWord (op : Opcode) (w : Word) (h : checkBeat (Beat.ofWord w) = .ok op) :
    w = beatWord op (Beat.ofWord w).nd (Beat.ofWord w).last (Beat.ofWord w).data := by
  obtain ⟨hop, hform⟩ := (checkBeat_eq_ok_iff op _).mp h
  rw [beatWord, ← hop, ← hform.rsv, toWord_ofWord]

/-- A legal beat that is not final is a data beat of a sequence operation. -/
theorem eq_beatWord_of_not_last (w : Word) (hwf : (Beat.ofWord w).wf = true) (hlast : (Beat.ofWord w).last = false) :
    ∃ op, isSeqOp op = true ∧ w = beatWord op false false (Beat.ofWord w).data := by
  obtain ⟨op, hop⟩ := (wf_iff_checkBeat _).mp hwf
  have hw := eq_beatWord op w hop
  obtain ⟨-, hform⟩ := (checkBeat_eq_ok_iff op _).mp hop
  have hseq : isSeqOp op = true := by
    by_contra hs
    simp [hform.single (by simpa using hs)] at hlast
  have hnd : (Beat.ofWord w).nd = false := by
    by_contra hn
    simp [hform.empty (by simpa using hn)] at hlast
  rw [hnd, hlast] at hw
  exact ⟨op, hseq, hw⟩

/-! ### Rows of data beats (R45 (c)) -/

/-- The beats of an operand that is still open: its bytes so far, each in a beat with `last` = 0. -/
def dataBeats (op : Opcode) (s : List Byte) : List Word := s.map (beatWord op false false)

theorem encodeSeq_concat (op : Opcode) (s : List Byte) (b : Byte) :
    encodeSeq op (s ++ [b]) = dataBeats op s ++ [beatWord op false true b] := by
  induction s with
  | nil => rfl
  | cons c s ih =>
    cases s with
    | nil => rfl
    | cons d s => exact congrArg (beatWord op false false c :: ·) ih

theorem decodeMore_dataBeats (op : Opcode) (h : isSeqOp op = true) (got s : List Byte) (ws : List Word) :
    decodeMore op got (dataBeats op s ++ ws) = decodeMore op (got ++ s) ws := by
  induction s generalizing got with
  | nil => simp [dataBeats]
  | cons b s ih =>
    have hmore := ih (got ++ [b])
    rw [List.append_assoc] at hmore
    exact (decodeMore_data op h got b _).trans hmore

theorem decode_dataBeats (op : Opcode) (h : isSeqOp op = true) (s : List Byte) (ws : List Word) (hs : s ≠ []) :
    decode (dataBeats op s ++ ws) = decodeMore op s ws := by
  cases s with
  | nil => exact absurd rfl hs
  | cons b s =>
    have hmore := decodeMore_dataBeats op h [b] s ws
    simpa [decode, dataBeats, checkBeat_seq_data op h, Beat.operand] using hmore

/-! ### Decoding what the encoder writes -/

theorem decode_encodeSeq (op : Opcode) (h : isSeqOp op = true) (s : List Byte) (rest : List Word) :
    decode (encodeSeq op s ++ rest) = .op (op.withOperand s) rest := by
  obtain rfl | ⟨t, b, rfl⟩ := List.eq_nil_or_concat' s
  · simp [encodeSeq, decode, checkBeat_seq_empty op h, Beat.operand]
  rw [encodeSeq_concat, List.append_assoc]
  by_cases ht : t = []
  · simp [ht, dataBeats, decode, checkBeat_seq_data op h, Beat.operand]
  · rw [decode_dataBeats op h t _ ht]
    exact decodeMore_final op h t b rest

theorem decode_encode (i : Instr) (rest : List Word) : decode (encode i ++ rest) = .op i rest := by
  cases i with
  | crcReset | crcStep | crcRead | crcFinish => simp [encode, decode, checkBeat, Beat.operand, Opcode.withOperand]
  | cobsEnc s => exact decode_encodeSeq .cobsEnc rfl s rest
  | cobsDec s => exact decode_encodeSeq .cobsDec rfl s rest
  | faChunk s => exact decode_encodeSeq .faChunk rfl s rest

theorem encode_injective (i j : Instr) (h : encode i = encode j) : i = j := by
  have hi := decode_encode i []
  rw [h, decode_encode j []] at hi
  cases hi
  rfl

/-! ### Encoding what the decoder reads -/

theorem encode_withOperand_seq (op : Opcode) (h : isSeqOp op = true) (s : List Byte) :
    encode (op.withOperand s) = encodeSeq op s := by
  cases op with
  | cobsEnc | cobsDec | faChunk => rfl
  | crcReset | crcStep | crcRead | crcFinish => cases h

/-- A legal final beat alone is the encoding of its operation with the operand it carries. -/
theorem encode_withOperand_final (op : Opcode) (w : Word) (h : checkBeat (Beat.ofWord w) = .ok op)
    (hlast : (Beat.ofWord w).last = true) : encode (op.withOperand (Beat.ofWord w).operand) = [w] := by
  have hw := eq_beatWord op w h
  obtain ⟨-, -, hempty, hsingle⟩ := (checkBeat_eq_ok_iff op _).mp h
  generalize Beat.ofWord w = b at *
  obtain ⟨n, rsv, nd, last, data⟩ := b
  subst hw
  cases nd <;> cases op <;> simp_all [isSeqOp, Beat.operand, Opcode.withOperand, encode, encodeSeq]

theorem decodeMore_eq_op (op : Opcode) (got : List Byte) (ws : List Word) (i : Instr) (rest : List Word)
    (h : decodeMore op got ws = .op i rest) :
    ∃ (s : List Byte) (b : Byte), i = op.withOperand (got ++ s ++ [b]) ∧
      ws = dataBeats op s ++ beatWord op false true b :: rest := by
  induction ws generalizing got with
  | nil => cases h
  | cons w ws ih =>
    simp only [decodeMore] at h
    cases hcheck : checkBeat (Beat.ofWord w) with
    | error why => simp [hcheck] at h
    | ok op' =>
      have hw := eq_beatWord op' w hcheck
      simp only [hcheck] at h
      split at h
      · cases h
      rename_i hop
      obtain rfl : op' = op := not_not.mp hop
      split at h
      · cases h
      rename_i hnd
      rw [Bool.not_eq_true] at hnd
      rw [hnd] at hw
      split at h
      · rename_i hlast
        rw [hlast] at hw
        cases h
        exact ⟨[], (Beat.ofWord w).data, by simp, congrArg (· :: rest) hw⟩
      · rename_i hlast
        rw [Bool.not_eq_true] at hlast
        rw [hlast] at hw
        obtain ⟨s, b, hi, hws⟩ := ih _ h
        exact ⟨(Beat.ofWord w).data :: s, b, by simpa using hi, by simp [hws, dataBeats, ← hw]⟩

theorem encode_of_decode (ws : List Word) (i : Instr) (rest : List Word) (h : decode ws = .op i rest) :
    ws = encode i ++ rest := by
  cases ws with
  | nil => cases h
  | cons w ws =>
    simp only [decode] at h
    cases hcheck : checkBeat (Beat.ofWord w) with
    | error why => simp [hcheck] at h
    | ok op =>
      simp only [hcheck] at h
      split at h
      · rename_i hlast
        cases h
        rw [encode_withOperand_final op w hcheck hlast]
        rfl
      · rename_i hlast
        rw [Bool.not_eq_true] at hlast
        obtain ⟨op', hseq, hw⟩ := eq_beatWord_of_not_last w ((wf_iff_checkBeat _).mpr ⟨op, hcheck⟩) hlast
        generalize (Beat.ofWord w).data = b at hw
        subst hw
        obtain rfl : op' = op := by simpa [checkBeat_seq_data op' hseq] using hcheck
        obtain ⟨s, c, rfl, rfl⟩ := decodeMore_eq_op op' _ ws i rest h
        rw [encode_withOperand_seq op' hseq, encodeSeq_concat]
        simp [dataBeats, Beat.operand]

/-! ### Legal sequences of beats, as WellFormed.lean states them -/

/-- After a data beat of an open operand a beat may follow that has the same operation and a byte. -/
theorem mayFollow_dataBeat_iff (op : Opcode) (b : Byte) (c : Beat) :
    (Beat.ofWord (beatWord op false false b)).mayFollow c = true ↔ c.op = op.number ∧ c.nd = false := by
  simp [Beat.mayFollow, BitVec.toNat_eq]

/-- A legal beat that follows a data beat of `op` is a data beat of `op`, final or not. -/
theorem eq_beatWord_of_mayFollow (op : Opcode) (b : Byte) (w : Word) (hwf : (Beat.ofWord w).wf = true)
    (h : (Beat.ofWord (beatWord op false false b)).mayFollow (Beat.ofWord w) = true) :
    w = beatWord op false (Beat.ofWord w).last (Beat.ofWord w).data := by
  obtain ⟨hop, hnd⟩ := (mayFollow_dataBeat_iff op b _).mp h
  have hw := eq_beatWord op w ((checkBeat_eq_ok_iff op _).mpr ⟨hop, (wf_of_number op _ hop).mp hwf⟩)
  rwa [hnd] at hw

/-- A legal beat that is not final, before a beat of `op` with a byte, is a data beat of `op`. -/
theorem eq_beatWord_of_precedes (op : Opcode) (last : Bool) (b : Byte) (w : Word) (hwf : (Beat.ofWord w).wf = true)
    (hlast : (Beat.ofWord w).last = false)
    (h : (Beat.ofWord w).mayFollow (Beat.ofWord (beatWord op false last b)) = true) :
    w = beatWord op false false (Beat.ofWord w).data := by
  obtain ⟨op', -, hw⟩ := eq_beatWord_of_not_last w hwf hlast
  rw [hw, mayFollow_dataBeat_iff, ofWord_beatWord] at h
  rwa [number_injective op op' h.1]

/-- An operand that is still open is a row of data beats of one sequence operation. -/
theorem openOperand_eq_dataBeats (ws : List Word) (h : openOperand (ws.map Beat.ofWord) = true) (hne : ws ≠ []) :
    ∃ (op : Opcode) (s : List Byte), isSeqOp op = true ∧ s ≠ [] ∧ ws = dataBeats op s := by
  induction ws with
  | nil => exact absurd rfl hne
  | cons w ws ih =>
    cases ws with
    | nil =>
      simp only [List.map_cons, List.map_nil, openOperand, Bool.and_eq_true, Bool.not_eq_true'] at h
      obtain ⟨op, hseq, hw⟩ := eq_beatWord_of_not_last w h.1 h.2
      exact ⟨op, [(Beat.ofWord w).data], hseq, List.cons_ne_nil _ _, congrArg (· :: []) hw⟩
    | cons c ws =>
      simp only [List.map_cons, openOperand, Bool.and_eq_true, Bool.not_eq_true'] at h ih
      obtain ⟨⟨⟨hwf, hlast⟩, hfollow⟩, hopen⟩ := h
      obtain ⟨op', s, hseq', hs, hws⟩ := ih hopen (List.cons_ne_nil c ws)
      cases s with
      | nil => exact absurd rfl hs
      | cons d s =>
        obtain ⟨rfl, rfl⟩ := List.cons_eq_cons.mp hws
        have hw := eq_beatWord_of_precedes op' false d w hwf hlast hfollow
        exact ⟨op', _ :: d :: s, hseq', List.cons_ne_nil _ _, congrArg (· :: dataBeats op' (d :: s)) hw⟩

/-- A legal sequence of more than one beat is a row of data beats and the final one. -/
theorem beatsWf_eq_dataBeats (w c : Word) (ws : List Word)
    (h : beatsWf ((w :: c :: ws).map Beat.ofWord) = true) :
    ∃ (op : Opcode) (s : List Byte) (b : Byte), isSeqOp op = true ∧ s ≠ [] ∧
      w :: c :: ws = dataBeats op s ++ [beatWord op false true b] := by
  induction ws generalizing w c with
  | nil =>
    simp only [List.map_cons, List.map_nil, beatsWf, Bool.and_eq_true, Bool.not_eq_true'] at h
    obtain ⟨⟨⟨hwf, hlast⟩, hfollow⟩, hcwf, hclast⟩ := h
    obtain ⟨op, hseq, hw⟩ := eq_beatWord_of_not_last w hwf hlast
    rw [hw] at hfollow
    have hc := eq_beatWord_of_mayFollow op _ c hcwf hfollow
    rw [hclast] at hc
    refine ⟨op, [(Beat.ofWord w).data], (Beat.ofWord c).data, hseq, List.cons_ne_nil _ _, ?_⟩
    rw [dataBeats, List.map_singleton, ← hw, ← hc]
    rfl
  | cons d ws ih =>
    rw [List.map_cons, List.map_cons, beatsWf] at h
    simp only [Bool.and_eq_true, Bool.not_eq_true'] at h
    obtain ⟨⟨⟨hwf, hlast⟩, hfollow⟩, hrest⟩ := h
    obtain ⟨op, s, b, hseq, hs, hws⟩ := ih c d hrest
    cases s with
    | nil => exact absurd rfl hs
    | cons e s =>
      obtain ⟨rfl, -⟩ := List.cons_eq_cons.mp hws
      have hw := eq_beatWord_of_precedes op false e w hwf hlast hfollow
      exact ⟨op, (Beat.ofWord w).data :: e :: s, b, hseq, List.cons_ne_nil _ _, List.cons_eq_cons.mpr ⟨hw, hws⟩⟩

/-- Every legal sequence of beats is the encoding of an operation. -/
theorem exists_encode_of_beatsWf (ws : List Word) (h : beatsWf (ws.map Beat.ofWord) = true) : ∃ i, encode i = ws := by
  match ws, h with
  | [w], h =>
    simp only [List.map_cons, List.map_nil, beatsWf, Bool.and_eq_true] at h
    obtain ⟨op, hcheck⟩ := (wf_iff_checkBeat _).mp h.1
    exact ⟨_, encode_withOperand_final op w hcheck h.2⟩
  | w :: c :: ws, h =>
    obtain ⟨op, s, b, hseq, -, hws⟩ := beatsWf_eq_dataBeats w c ws h
    exact ⟨op.withOperand (s ++ [b]), by rw [encode_withOperand_seq op hseq, encodeSeq_concat, hws]⟩

/-- The decoder waits exactly as long as the operand is open: it has not answered before the final beat. -/
theorem decode_of_openOperand (ws : List Word) (h : openOperand (ws.map Beat.ofWord) = true) : decode ws = .waiting := by
  by_cases hne : ws = []
  · rw [hne]
    rfl
  · obtain ⟨op, s, hseq, hs, rfl⟩ := openOperand_eq_dataBeats ws h hne
    have hd := decode_dataBeats op hseq s [] hs
    rwa [List.append_nil] at hd

/-! ### Illegal beats (R48) -/

/-- The first beat of an operation is refused when it is illegal by itself. -/
theorem decode_illegal_first (w : Word) (rest : List Word) (h : (Beat.ofWord w).wf = false) :
    ∃ why, decode (w :: rest) = .illegal why rest := by
  cases hcheck : checkBeat (Beat.ofWord w) with
  | ok op =>
    rw [(wf_iff_checkBeat _).mpr ⟨op, hcheck⟩] at h
    cases h
  | error why => exact ⟨why, by simp [decode, hcheck]⟩

/-- A beat inside an operand of `op` is refused when it is illegal by itself, of another operation or without a byte. -/
theorem decodeMore_illegal (op : Opcode) (got : List Byte) (w : Word) (rest : List Word)
    (h : (Beat.ofWord w).wf = false ∨ ¬ ((Beat.ofWord w).op = op.number ∧ (Beat.ofWord w).nd = false)) :
    ∃ why, decodeMore op got (w :: rest) = .illegal why rest := by
  cases hcheck : checkBeat (Beat.ofWord w) with
  | error why => exact ⟨why, by simp [decodeMore, hcheck]⟩
  | ok op' =>
    rw [(wf_iff_checkBeat _).mpr ⟨op', hcheck⟩] at h
    by_cases hop : op' = op
    · have hnum := ((checkBeat_eq_ok_iff op' _).mp hcheck).1
      have hnd : (Beat.ofWord w).nd = true := by simpa [hnum, hop] using h
      exact ⟨.emptyBeatInside, by simp [decodeMore, hcheck, hop, hnd]⟩
    · exact ⟨.interruptsOperand, by simp [decodeMore, hcheck, hop]⟩

/-- An illegal beat is refused at its place, with the open operand before it. -/
theorem decode_illegal (before : List Word) (w : Word) (rest : List Word)
    (hopen : openOperand (before.map Beat.ofWord) = true)
    (h : (Beat.ofWord w).wf = false ∨ ∃ p ∈ before.getLast?, (Beat.ofWord p).mayFollow (Beat.ofWord w) = false) :
    ∃ why, decode (before ++ w :: rest) = .illegal why rest := by
  by_cases hne : before = []
  · subst hne
    exact decode_illegal_first w rest (by simpa using h)
  · obtain ⟨op, s, hseq, hs, rfl⟩ := openOperand_eq_dataBeats before hopen hne
    rw [decode_dataBeats op hseq s _ hs]
    refine decodeMore_illegal op s w rest (h.imp_right ?_)
    rintro ⟨p, hp, hfollow⟩
    obtain ⟨b, -, rfl⟩ := List.mem_map.mp (List.mem_of_getLast? hp)
    rw [← mayFollow_dataBeat_iff op b, hfollow]
    exact Bool.false_ne_true

/-! ### One step -/

theorem step_of_op (s : State) (i : Instr) (rest : List Word) (h : decode s.beats = .op i rest) :
    step s = exec i (s.setBeats rest) := by
  rw [step, h]

theorem step_of_waiting (s : State) (h : decode s.beats = .waiting) : step s = .next s := by
  rw [step, h]
  rfl

theorem step_of_illegal (s : State) (why : IllegalBeat) (rest : List Word) (h : decode s.beats = .illegal why rest) :
    step s = .refused (.illegalBeat why) := by
  rw [step, h]
  rfl

/-- A step that goes on has waited, or has executed the first operation presented and left the beats after it. -/
theorem step_eq_next (s t : State) (h : step s = .next t) :
    (decode s.beats = .waiting ∧ t = s) ∨
      ∃ i rest, decode s.beats = .op i rest ∧ exec i (s.setBeats rest) = .next t := by
  cases hd : decode s.beats with
  | waiting =>
    rw [step_of_waiting s hd] at h
    cases h
    exact .inl ⟨rfl, rfl⟩
  | op i rest => exact .inr ⟨i, rest, rfl, (step_of_op s i rest hd).symm.trans h⟩
  | illegal why rest =>
    rw [step_of_illegal s why rest hd] at h
    cases h

theorem step_of_encode (i : Instr) (rest : List Word) (s : State) (h : s.beats = encode i ++ rest) :
    step s = exec i (s.setBeats rest) :=
  step_of_op s i rest (h ▸ decode_encode i rest)

/-! ### Programs presented at the port -/

/-- A run goes on from the state its first step leaves. -/
theorem core_run_succ (M : Host.Core) (k : Nat) (s t : M.State) (h : M.step s = .next t) :
    M.run (k + 1) s = M.run k t := by
  rw [Host.Core.run, h]

/-- The beats of a program run as the program, one operation a step. -/
theorem run_encodeAll (is : List Instr) (after : List Word) (s : State) :
    Host.Core.run Sys2Proof.core is.length (s.setBeats (encodeAll is ++ after)) = execAll is (s.setBeats after) := by
  induction is generalizing s with
  | nil => rfl
  | cons i is ih =>
    obtain ⟨t, _, ht, -⟩ := exec_frame i s
    have hbeats : encodeAll (i :: is) ++ after = encode i ++ (encodeAll is ++ after) := by simp [encodeAll]
    have hstep : step (s.setBeats (encodeAll (i :: is) ++ after)) = .next (t.setBeats (encodeAll is ++ after)) := by
      rw [step_of_encode i _ _ hbeats]
      exact exec_setBeats i _ s t ht
    rw [execAll_cons i is _ _ (exec_setBeats i after s t ht), ← ih t]
    exact core_run_succ Sys2Proof.core is.length _ _ hstep

/-- A table word the decoder reads is the encoding of its instruction. -/
theorem tableBeats_eq_encode (nbits w : Nat) (i : Instr) (h : decodeTableWord nbits w = some i) :
    tableBeats nbits w = encode i := by
  rw [decodeTableWord] at h
  split at h
  · rename_i j hd
    cases h
    simpa using encode_of_decode _ _ _ hd
  all_goals cases h

/-! ### The obligations -/

/-- Settles O48: the encoder's rows of data beats, read back beat by beat. -/
theorem decodeOfEncodeIsTheInstruction : Obligations.DecodeOfEncodeIsTheInstruction := decode_encode

/-- Settles O55: each step takes the beats of one operation, and no operation looks at the beats behind it. -/
theorem presentedProgramRunsInOrder : Obligations.PresentedProgramRunsInOrder := run_encodeAll

/-- Settles O49: every beat the decoder passes has the bits the encoder gives it. -/
theorem onlyItsEncodingDecodesToIt : Obligations.OnlyItsEncodingDecodesToIt := encode_of_decode

/-- Settles O50: the legal sequence is an encoding, and the decoder inverts the encoder. -/
theorem legalBeatsSpellExactlyOneOperation : Obligations.LegalBeatsSpellExactlyOneOperation := by
  intro ws h
  obtain ⟨i, rfl⟩ := exists_encode_of_beatsWf ws h
  have hd := decode_encode i []
  rw [List.append_nil] at hd
  exact ⟨⟨i, rfl, hd⟩, fun j k hj hk => encode_injective j k (hj.trans hk.symm)⟩

/-- Settles O52: the decoder waits while the operand is open. -/
theorem stepWaitsForTheFinalBeat : Obligations.StepWaitsForTheFinalBeat :=
  fun s h => step_of_waiting s (decode_of_openOperand s.beats h)

/-- Settles O53: the decoder refuses the beat at its place, and discarding leaves the beats after it. -/
theorem illegalBeatIsRefused : Obligations.IllegalBeatIsRefused := by
  intro before w rest s hs hopen h
  obtain ⟨why, hd⟩ := decode_illegal before w rest hopen h
  rw [← hs] at hd
  refine ⟨⟨why, step_of_illegal s why rest hd⟩, ?_⟩
  rw [State.discardRefused, hd]
  rfl

/-- Settles O56: the placed word is an encoding at the front of the port. -/
theorem placedTableWordIsExecuted : Obligations.PlacedTableWordIsExecuted := by
  intro s nbits w i h
  exact step_of_encode i s.beats (s.withFetchWord nbits w) (congrArg (· ++ s.beats) (tableBeats_eq_encode nbits w i h))

/-- Settles O44: a step that goes on waits or executes an operation, and no operation writes the parameters. -/
theorem parametersNeverChange : Obligations.ParametersNeverChange := by
  intro s t h
  obtain ⟨-, rfl⟩ | ⟨i, rest, -, hexec⟩ := step_eq_next s t h
  · rfl
  · obtain ⟨u, _, hu, hconfig, -⟩ := exec_frame i (s.setBeats rest)
    cases hexec.symm.trans hu
    exact hconfig

/-- Settles O47: the words, decoded. -/
theorem sampleBeatsDecode : Obligations.SampleBeatsDecode := by
  unfold Obligations.SampleBeatsDecode
  decide

/-- Settles O51: the step executes the operation with its beats taken, and every operation leaves the port alone. -/
theorem stepRunsTheDecodedOperation : Obligations.StepRunsTheDecodedOperation := by
  intro s i rest h
  obtain ⟨t, _, ht, -, hbeats, -⟩ := exec_frame i (s.setBeats rest)
  exact ⟨step_of_op s i rest h, t, (step_of_op s i rest h).trans ht, hbeats⟩

/-- Settles O54: a complete operation goes on, as every operation does, and an open operand waits. -/
theorem onlyAnIllegalBeatStops : Obligations.OnlyAnIllegalBeatStops := by
  intro s
  cases hd : decode s.beats with
  | waiting => exact .inl ⟨s, step_of_waiting s hd⟩
  | op i rest =>
    obtain ⟨t, _, ht, -⟩ := exec_frame i (s.setBeats rest)
    exact .inl ⟨t, (step_of_op s i rest hd).trans ht⟩
  | illegal why rest => exact .inr ⟨why, rest, rfl, step_of_illegal s why rest hd⟩

end Sys2Proof.Laws

/-! The codec beyond the round trip (spec/40_cobs.md sections 2 to 4, spec/70_reset_and_hazards.md section 3): what COBS.DEC
accepts, the shape and the length of a frame, the byte-serial decoder and the single-pass encoder, and the encode procedure
as printed. The key facts: every input is a chain of whole blocks up to its end or its first offence, and every sub-run is
some full blocks and fewer than 254 bytes more. -/

namespace Sys2Proof.Laws

open Sys2Proof.Machine

/-! ### Chains of blocks (R38, R39) -/

theorem chainBytes_isEmpty (bs : List Block) : (chainBytes bs).isEmpty = bs.isEmpty := by
  cases bs <;> rfl

theorem chainPayload_cons (b : Block) (bs : List Block) :
    chainPayload (b :: bs) =
      b.literals ++ (if impliesDelim b.pointer && !bs.isEmpty then [delim] else []) ++ chainPayload bs := by
  cases bs with
  | nil => simp [chainPayload]
  | cons c bs => by_cases h : b.pointer = ptrFull <;> simp [chainPayload, impliesDelim, h]

theorem cobsDecode_chainBytes (bs : List Block) (h : ∀ b ∈ bs, b.wf = true) :
    cobsDecode (chainBytes bs) = .ok (chainPayload bs) := by
  induction bs with
  | nil => rfl
  | cons b bs ih =>
    obtain ⟨hb, hbs⟩ := List.forall_mem_cons.mp h
    obtain ⟨hp, hlen, hfree⟩ := (block_wf_iff b).mp hb
    rw [chainBytes_cons, cobsDecode_block b.pointer b.literals _ hp hfree hlen, ih hbs, chainBytes_isEmpty,
      chainPayload_cons]
    rfl

/-- Every input is a chain of whole blocks, up to its end or to its first offence. -/
theorem eq_chainBytes_append (s : List Byte) :
    ∃ (bs : List Block) (u : List Byte), (∀ b ∈ bs, b.wf = true) ∧ s = chainBytes bs ++ u ∧
      (u = [] ∨ ∃ c, Offends c u) := by
  induction hn : s.length using Nat.strong_induction_on generalizing s with
  | _ n ih =>
    cases s with
    | nil => exact ⟨[], [], by simp, rfl, .inl rfl⟩
    | cons p s =>
      obtain ⟨c, hc⟩ | ⟨b, after, hb, hs⟩ := offends_or_block p s
      · exact ⟨[], p :: s, by simp, rfl, .inr ⟨c, hc⟩⟩
      · have hlt : after.length < n := by simp [← hn, hs]
        obtain ⟨bs, u, hbs, hafter, hu⟩ := ih _ hlt after rfl
        refine ⟨b :: bs, u, List.forall_mem_cons.mpr ⟨hb, hbs⟩, ?_, hu⟩
        rw [hs, hafter, chainBytes_cons, List.append_assoc]

/-- A block of at most 254 literals after its pointer byte is well-formed. -/
theorem block_wf_pointerByte (a : List Byte) (hfree : delim ∉ a) (hlen : a.length ≤ maxRun) :
    (Block.mk (pointerByte a.length) a).wf = true :=
  (block_wf_iff _).mpr ⟨pointerByte_ne_delim _ hlen, (literalCount_pointerByte _ hlen).symm, hfree⟩

/-! ### The byte-serial decoder (R62) -/

/-- What the byte-serial decoder inserts when it takes the next pointer byte: a 0x00 after a block that is not full. -/
def pendingDelim : Option Byte → List Byte
  | none => []
  | some p => if p = ptrFull then [] else [delim]

theorem serialDecodeByte_pointer (r : List Byte) (prev : Option Byte) (p : Byte) (hp : p ≠ delim) :
    serialDecodeByte ⟨r, 0, prev⟩ p = .ok ⟨r ++ pendingDelim prev, literalCount p, some p⟩ := by
  simp only [serialDecodeByte, hp, if_true, if_false]
  cases prev <;> rfl

/-- The literals of an open block are collected as long as they are owed. -/
theorem serialDecodeFrom_literals (literals s r : List Byte) (owed : Nat) (prev : Option Byte)
    (hfree : delim ∉ literals) :
    serialDecodeFrom ⟨r, literals.length + owed, prev⟩ (literals ++ s) =
      serialDecodeFrom ⟨r ++ literals, owed, prev⟩ s := by
  induction literals generalizing r with
  | nil => simp
  | cons b literals ih =>
    obtain ⟨hb, hliterals⟩ := List.ne_and_not_mem_of_not_mem_cons hfree
    have howed : (b :: literals).length + owed = literals.length + owed + 1 := by
      simp only [List.length_cons]
      omega
    have hrest := ih (r ++ [b]) hliterals
    rw [List.append_assoc] at hrest
    simp only [howed, List.cons_append, serialDecodeFrom, serialDecodeByte, hb.symm]
    simpa using hrest

/-- A whole block of the byte-serial decoder: the pending 0x00 and the literals. -/
theorem serialDecodeFrom_block (b : Block) (s r : List Byte) (prev : Option Byte) (hb : b.wf = true) :
    serialDecodeFrom ⟨r, 0, prev⟩ (b.pointer :: b.literals ++ s) =
      serialDecodeFrom ⟨r ++ pendingDelim prev ++ b.literals, 0, some b.pointer⟩ s := by
  obtain ⟨hp, hlen, hfree⟩ := (block_wf_iff b).mp hb
  have hliterals := serialDecodeFrom_literals b.literals s (r ++ pendingDelim prev) 0 (some b.pointer) hfree
  rw [← hliterals, List.cons_append, serialDecodeFrom, serialDecodeByte_pointer r prev _ hp, ← hlen]
  rfl

/-- The byte-serial decoder stops at an offence with its cause. -/
theorem serialDecodeFrom_of_offends (c : Cause) (u r : List Byte) (prev : Option Byte) (h : Offends c u) :
    serialDecodeFrom ⟨r, 0, prev⟩ u = .err c := by
  cases h with
  | zeroPointer rest => simp [serialDecodeFrom, serialDecodeByte]
  | zeroLiteral p literals rest hp hfree howed =>
    obtain ⟨k, hk⟩ := Nat.exists_eq_add_of_lt ((lt_literalCount_iff _ p).mpr howed)
    rw [List.cons_append, serialDecodeFrom, serialDecodeByte_pointer r prev p hp, hk, Nat.add_assoc]
    simp [serialDecodeFrom_literals, hfree, serialDecodeFrom, serialDecodeByte]
  | overrun p literals hp hfree howed =>
    obtain ⟨k, hk⟩ := Nat.exists_eq_add_of_lt ((lt_literalCount_iff _ p).mpr howed)
    have hliterals := serialDecodeFrom_literals literals [] (r ++ pendingDelim prev) (k + 1) (some p) hfree
    rw [List.append_nil] at hliterals
    rw [serialDecodeFrom, serialDecodeByte_pointer r prev p hp, hk, Nat.add_assoc]
    simp only [hliterals, serialDecodeFrom]
    rfl

/-- The byte-serial decoder over a chain: its payload, after the 0x00 the block before the chain asks for. -/
theorem serialDecodeFrom_chainBytes (bs : List Block) (r : List Byte) (prev : Option Byte)
    (h : ∀ b ∈ bs, b.wf = true) :
    serialDecodeFrom ⟨r, 0, prev⟩ (chainBytes bs) =
      .ok (r ++ (if bs.isEmpty then [] else pendingDelim prev) ++ chainPayload bs) := by
  induction bs generalizing r prev with
  | nil => simp [chainBytes, chainPayload, serialDecodeFrom]
  | cons b bs ih =>
    obtain ⟨hb, hbs⟩ := List.forall_mem_cons.mp h
    have hinserted : (if bs.isEmpty then [] else pendingDelim (some b.pointer)) =
        if impliesDelim b.pointer && !bs.isEmpty then [delim] else [] := by
      cases bs with
      | nil => simp
      | cons c bs => by_cases hfull : b.pointer = ptrFull <;> simp [pendingDelim, impliesDelim, hfull]
    rw [chainBytes_cons, serialDecodeFrom_block b _ r prev hb, ih _ _ hbs, hinserted, chainPayload_cons]
    simp

/-- The byte-serial decoder over a chain and the offence after it. -/
theorem serialDecodeFrom_chainBytes_append (bs : List Block) (c : Cause) (u r : List Byte) (prev : Option Byte)
    (h : ∀ b ∈ bs, b.wf = true) (hu : Offends c u) :
    serialDecodeFrom ⟨r, 0, prev⟩ (chainBytes bs ++ u) = .err c := by
  induction bs generalizing r prev with
  | nil => exact serialDecodeFrom_of_offends c u r prev hu
  | cons b bs ih =>
    obtain ⟨hb, hbs⟩ := List.forall_mem_cons.mp h
    rw [chainBytes_cons, List.append_assoc, serialDecodeFrom_block b _ r prev hb]
    exact ih _ _ hbs

/-! ### The sub-runs of an interior (R55) -/

/-- Every sub-run is some full blocks' literals and fewer than 254 bytes more. -/
theorem run_induction {P : List Byte → Prop} (short : ∀ r, r.length < maxRun → P r)
    (full : ∀ c r, c.length = maxRun → P r → P (c ++ r)) (r : List Byte) : P r := by
  induction hn : r.length using Nat.strong_induction_on generalizing r with
  | _ n ih =>
    by_cases hshort : r.length < maxRun
    · exact short r hshort
    · have htake : (r.take maxRun).length = maxRun := List.length_take_of_le (Nat.le_of_not_lt hshort)
      have hlt : (r.drop maxRun).length < n := by
        rw [maxRun] at hshort
        simp only [List.length_drop, maxRun]
        omega
      rw [← List.take_append_drop maxRun r]
      exact full _ _ htake (ih _ hlt _ rfl)

theorem runBlocks_canonical (r : List Byte) (isLast : Bool) :
    ∃ (full : List (List Byte)) (rest : List Byte),
      r = full.flatten ++ rest ∧ (∀ c ∈ full, c.length = maxRun) ∧ rest.length < maxRun ∧
      runBlocks r isLast =
        full.flatMap (fun c => ptrFull :: c) ++
          (if rest ≠ [] then pointerByte rest.length :: rest
           else if full = [] ∨ isLast = false then [ptrMin] else []) := by
  induction r using run_induction with
  | short r h =>
    refine ⟨[], r, rfl, by simp, h, ?_⟩
    rw [runBlocks_short r isLast h]
    cases r <;> rfl
  | full c r hc ih =>
    by_cases hmore : r ≠ [] ∨ isLast = false
    · obtain ⟨full, rest, hr, hfull, hrest, hblocks⟩ := ih
      refine ⟨c :: full, rest, by simp [hr], List.forall_mem_cons.mpr ⟨hc, hfull⟩, hrest, ?_⟩
      have hlast : rest = [] → (full = [] ∨ isLast = false ↔ isLast = false) := by
        rintro rfl
        refine or_iff_right_of_imp fun hnil => hmore.resolve_left ?_
        simp [hr, hnil]
      rw [runBlocks_full_append c r isLast hc hmore, hblocks]
      by_cases hnil : rest = []
      · simp [hnil, hlast hnil]
      · simp [hnil]
    · obtain ⟨rfl, rfl⟩ : r = [] ∧ isLast = true := by simpa using hmore
      exact ⟨[c], [], by simp, by simpa using hc, by decide, by simp [runBlocks_full_last c hc]⟩

theorem delim_notMem_runBlocks (r : List Byte) (isLast : Bool) (hfree : delim ∉ r) : delim ∉ runBlocks r isLast := by
  have hmin : delim ≠ ptrMin := by decide
  have hfull : delim ≠ ptrFull := by decide
  induction r using run_induction with
  | short r h =>
    rw [runBlocks_short r isLast h]
    exact List.not_mem_cons_of_ne_of_not_mem (pointerByte_ne_delim _ h.le).symm hfree
  | full c r hc ih =>
    obtain ⟨hcfree, hrfree⟩ := not_or.mp (mt List.mem_append.mpr hfree)
    by_cases hmore : r ≠ [] ∨ isLast = false
    · rw [runBlocks_full_append c r isLast hc hmore]
      simp [hfull, hcfree, ih hrfree]
    · obtain ⟨rfl, rfl⟩ : r = [] ∧ isLast = true := by simpa using hmore
      simpa [runBlocks_full_last c hc, hfull] using hcfree

theorem delim_notMem_interiorOf (runs : List (List Byte)) (hfree : ∀ r ∈ runs, delim ∉ r) :
    delim ∉ interiorOf runs := by
  match runs, hfree with
  | [], _ => exact List.not_mem_nil
  | [r], hfree => exact delim_notMem_runBlocks r true (hfree r (List.mem_singleton_self r))
  | r :: q :: rs, hfree =>
    obtain ⟨hr, hrest⟩ := List.forall_mem_cons.mp hfree
    rw [interiorOf, List.mem_append, not_or]
    exact ⟨delim_notMem_runBlocks r false hr, delim_notMem_interiorOf (q :: rs) hrest⟩

/-! ### The length of a frame -/

theorem length_runBlocks_false (r : List Byte) : (runBlocks r false).length = r.length + r.length / maxRun + 1 := by
  induction r using run_induction with
  | short r h => simp [runBlocks_short r false h, Nat.div_eq_of_lt h]
  | full c r hc ih =>
    rw [runBlocks_full_append c r false hc (.inr rfl)]
    simp only [List.length_append, List.length_cons, ih, hc, maxRun]
    omega

theorem length_runBlocks_true (r : List Byte) :
    (runBlocks r true).length = r.length + max 1 ((r.length + 253) / maxRun) := by
  induction r using run_induction with
  | short r h =>
    rw [runBlocks_short r true h, List.length_cons]
    rw [maxRun] at *
    omega
  | full c r hc ih =>
    by_cases hr : r = []
    · rw [hr, List.append_nil, runBlocks_full_last c hc, List.length_cons, hc, maxRun]
      rfl
    · have hpos := List.length_pos_iff.mpr hr
      rw [runBlocks_full_append c r true hc (.inl hr)]
      simp only [List.length_append, List.length_cons, ih, hc, maxRun]
      omega

/-- The length of an interior: its payload, joined, with the pointer bytes of every sub-run but the 0x00 between two. -/
theorem length_interiorOf (runs : List (List Byte)) (h : runs ≠ []) :
    (interiorOf runs).length =
      (List.intercalate [delim] runs).length + (runs.dropLast.map fun r => r.length / maxRun).sum +
        max 1 (((runs.getLastD []).length + 253) / maxRun) := by
  induction runs with
  | nil => exact absurd rfl h
  | cons r rs ih =>
    cases rs with
    | nil => simp [interiorOf, length_runBlocks_true]
    | cons q rs =>
      have hq := ih (List.cons_ne_nil q rs)
      rw [interiorOf, List.length_append, length_runBlocks_false, hq, List.intercalate_cons_cons,
        List.dropLast_cons_cons]
      simp only [List.map_cons, List.sum_cons, List.getLastD_eq_getLast?, List.getLast?_cons_cons, List.length_append,
        List.length_cons, List.length_nil]
      omega

/-- One pointer byte for every 254 bytes begun is enough: the 0x00 between two sub-runs pays for the rest. -/
theorem pointerBytes_le (runs : List (List Byte)) (h : runs ≠ []) :
    (runs.dropLast.map fun r => r.length / maxRun).sum + max 1 (((runs.getLastD []).length + 253) / maxRun) ≤
      max 1 (((List.intercalate [delim] runs).length + 253) / maxRun) := by
  induction runs with
  | nil => exact absurd rfl h
  | cons r rs ih =>
    cases rs with
    | nil => simp
    | cons q rs =>
      have hq := ih (List.cons_ne_nil q rs)
      rw [List.intercalate_cons_cons, List.dropLast_cons_cons]
      simp only [maxRun, List.map_cons, List.sum_cons, List.getLastD_eq_getLast?, List.getLast?_cons_cons,
        List.length_append, List.length_cons, List.length_nil] at hq ⊢
      omega

/-! ### The single-pass encoder (R63) -/

theorem modifyHead_nil_append (runs : List (List Byte)) : runs.modifyHead ([] ++ ·) = runs := by
  cases runs <;> rfl

/-- The blocks that a payload still gives when the encoder has read `blk` of its first sub-run: those of the sub-runs with
`blk` in front; none when a full block has just been written and the payload ends. -/
def remainingBlocks (e : SerialEncoder) (s : List Byte) : List Byte :=
  if e.full && s.isEmpty then [] else interiorOf ((splitRuns s).modifyHead (e.blk ++ ·))

theorem remainingBlocks_of_not_full (r blk s : List Byte) :
    remainingBlocks ⟨r, blk, false⟩ s = interiorOf ((splitRuns s).modifyHead (blk ++ ·)) := rfl

/-- The end of the single-pass encoder (R63): what is left of the open block. -/
def serialEncodeEnd (e : SerialEncoder) : List Byte :=
  if e.full then e.r else e.r ++ [pointerByte e.blk.length] ++ e.blk

/-- A full block is written at once; what follows it depends on whether the payload ends there. -/
theorem interiorOf_full_block (r c s : List Byte) (hc : c.length = maxRun) :
    interiorOf ((splitRuns s).modifyHead (c ++ ·)) = ptrFull :: c ++ remainingBlocks ⟨r, [], true⟩ s := by
  cases s with
  | nil => simpa [remainingBlocks, splitRuns, interiorOf] using runBlocks_full_last c hc
  | cons b s =>
    have hjoin := intercalate_splitRuns (b :: s)
    have hne := splitRuns_ne_nil (b :: s)
    simp only [remainingBlocks]
    generalize splitRuns (b :: s) = runs at *
    match runs, hne with
    | [q], _ =>
      have hq : q ≠ [] := by simpa using ne_of_eq_of_ne hjoin (List.cons_ne_nil b s)
      simpa [interiorOf] using runBlocks_full_append c q true hc (.inl hq)
    | q :: q' :: rs, _ =>
      have hq := runBlocks_full_append c q false hc (.inr rfl)
      simp [interiorOf, hq]

theorem remainingBlocks_delim (e : SerialEncoder) (s : List Byte) :
    remainingBlocks e (delim :: s) = runBlocks e.blk false ++ interiorOf (splitRuns s) := by
  rw [remainingBlocks, splitRuns_delim_cons]
  cases hs : splitRuns s with
  | nil => exact absurd hs (splitRuns_ne_nil s)
  | cons r rs => simp [interiorOf]

theorem remainingBlocks_cons (e : SerialEncoder) (b : Byte) (s : List Byte) (hb : b ≠ delim) :
    remainingBlocks e (b :: s) = interiorOf ((splitRuns s).modifyHead (e.blk ++ [b] ++ ·)) := by
  rw [remainingBlocks, splitRuns_cons b s hb]
  cases splitRuns s <;> simp

/-- What the single-pass encoder has written and what it will write are the interior of the payload. -/
theorem serialEncodeEnd_foldl (s : List Byte) (e : SerialEncoder) (hblk : e.blk.length < maxRun)
    (hfull : e.full = true → e.blk = []) :
    serialEncodeEnd (s.foldl serialEncodeByte e) = e.r ++ remainingBlocks e s := by
  induction s generalizing e with
  | nil =>
    obtain ⟨r, blk, full⟩ := e
    cases full with
    | true => simp [serialEncodeEnd, remainingBlocks]
    | false =>
      have hblocks := runBlocks_short blk true hblk
      simp [serialEncodeEnd, remainingBlocks, splitRuns, interiorOf, hblocks]
  | cons b s ih =>
    obtain ⟨r, blk, full⟩ := e
    simp only at hblk hfull
    rw [List.foldl_cons]
    by_cases hb : b = delim
    · have hbyte : serialEncodeByte ⟨r, blk, full⟩ b = ⟨r ++ pointerByte blk.length :: blk, [], false⟩ := by
        cases full with
        | true => simp [serialEncodeByte, hb, hfull rfl, pointerByte, ptrMin]
        | false => simp [serialEncodeByte, hb]
      rw [hbyte, ih _ (by simp [maxRun]) (fun _ => rfl), hb, remainingBlocks_delim, runBlocks_short blk false hblk,
        remainingBlocks_of_not_full, modifyHead_nil_append, List.append_assoc]
    · rw [remainingBlocks_cons _ b s hb]
      by_cases hlen : blk.length + 1 = maxRun
      · have hbyte : serialEncodeByte ⟨r, blk, full⟩ b = ⟨r ++ ptrFull :: (blk ++ [b]), [], true⟩ := by
          simp [serialEncodeByte, hb, hlen]
        rw [hbyte, ih _ (by simp [maxRun]) (fun _ => rfl), interiorOf_full_block r _ s (by simpa using hlen),
          List.append_assoc]
        rfl
      · have hbyte : serialEncodeByte ⟨r, blk, full⟩ b = ⟨r, blk ++ [b], false⟩ := by
          simp [serialEncodeByte, hb, hlen]
        have hroom : (blk ++ [b]).length < maxRun := by
          simp only [List.length_append, List.length_singleton]
          omega
        rw [hbyte, ih _ hroom (fun h => absurd h Bool.false_ne_true), remainingBlocks_of_not_full]

theorem serialEncode_eq (p : List Byte) : serialEncode p = cobsEncode p := by
  have h := serialEncodeEnd_foldl p ⟨[delim], [], false⟩ (by decide) (fun _ => rfl)
  rw [remainingBlocks_of_not_full, modifyHead_nil_append] at h
  exact congrArg (· ++ [delim]) h

/-! ### The encode procedure as printed (R119) -/

/-- The sub-runs whose following 0x00 the printed procedure loses: those of 254k bytes, k >= 1. -/
def losesDelim (r : List Byte) : Bool := r.length ≠ 0 && r.length % maxRun = 0

/-- The payload the printed interior stands for: the sub-runs joined, without the lost 0x00. -/
def printedPayload : List (List Byte) → List Byte
  | [] => []
  | [r] => r
  | r :: q :: rs => r ++ (if losesDelim r then [] else [delim]) ++ printedPayload (q :: rs)

/-- Every sub-run, encoded as if it were the last. -/
def printedBlocks (runs : List (List Byte)) : List Byte := runs.flatMap fun r => runBlocks r true

theorem printedBlocks_cons (r : List Byte) (rs : List (List Byte)) :
    printedBlocks (r :: rs) = runBlocks r true ++ printedBlocks rs := rfl

/-- A sub-run encoded as the last one decodes to itself, with the 0x00 after it unless that is lost or nothing follows. -/
theorem cobsDecode_runBlocks_true (r after : List Byte) (hfree : delim ∉ r) :
    cobsDecode (runBlocks r true ++ after) =
      prependPayload (r ++ if after.isEmpty || losesDelim r then [] else [delim]) (cobsDecode after) := by
  induction r using run_induction with
  | short r h =>
    have hkeeps : losesDelim r = false := by simp [losesDelim, Nat.mod_eq_of_lt h]
    rw [runBlocks_short r true h, cobsDecode_short_block r after h hfree, hkeeps, Bool.or_false]
  | full c r hc ih =>
    obtain ⟨hcfree, hrfree⟩ := not_or.mp (mt List.mem_append.mpr hfree)
    by_cases hr : r = []
    · have hloses : losesDelim c = true := by simp [losesDelim, hc, maxRun]
      rw [hr, List.append_nil, runBlocks_full_last c hc, cobsDecode_full_block c after hc hcfree, hloses]
      simp
    · have hmod : (c.length + r.length) % maxRun = r.length % maxRun := by simp [hc]
      have hsame : losesDelim (c ++ r) = losesDelim r := by simp [losesDelim, hmod, hr]
      rw [runBlocks_full_append c r true hc (.inl hr), List.append_assoc, cobsDecode_full_block c _ hc hcfree,
        ih hrfree, prependPayload_append, hsame, List.append_assoc]

theorem cobsDecode_printedBlocks (runs : List (List Byte)) (hfree : ∀ r ∈ runs, delim ∉ r) :
    cobsDecode (printedBlocks runs) = .ok (printedPayload runs) := by
  induction runs with
  | nil => rfl
  | cons r rs ih =>
    obtain ⟨hr, hrs⟩ := List.forall_mem_cons.mp hfree
    rw [printedBlocks_cons, cobsDecode_runBlocks_true r _ hr, ih hrs]
    cases rs with
    | nil => simp [printedBlocks, printedPayload, prependPayload]
    | cons q rs =>
      have hafter : (printedBlocks (q :: rs)).isEmpty = false := by simp [printedBlocks_cons, runBlocks_ne_nil]
      simp [hafter, printedPayload, prependPayload]

theorem printedPayload_sublist (runs : List (List Byte)) :
    (printedPayload runs).Sublist (List.intercalate [delim] runs) := by
  induction runs with
  | nil => exact List.Sublist.refl _
  | cons r rs ih =>
    cases rs with
    | nil => simp [printedPayload]
    | cons q rs =>
      have hdelim : (if losesDelim r then [] else [delim]).Sublist [delim] := by split <;> simp
      rw [printedPayload, List.intercalate_cons_cons]
      exact ((List.Sublist.refl r).append hdelim).append ih

theorem length_printedPayload (runs : List (List Byte)) :
    (printedPayload runs).length + (runs.dropLast.filter losesDelim).length = (List.intercalate [delim] runs).length := by
  induction runs with
  | nil => rfl
  | cons r rs ih =>
    cases rs with
    | nil => simp [printedPayload]
    | cons q rs =>
      rw [printedPayload, List.intercalate_cons_cons, List.dropLast_cons_cons]
      cases hr : losesDelim r <;> simp [hr] at ih ⊢ <;> omega

theorem filter_printedPayload (runs : List (List Byte)) :
    (printedPayload runs).filter (· ≠ delim) = (List.intercalate [delim] runs).filter (· ≠ delim) := by
  induction runs with
  | nil => rfl
  | cons r rs ih =>
    cases rs with
    | nil => simp [printedPayload]
    | cons q rs =>
      have hdelim : (if losesDelim r then [] else [delim]).filter (· ≠ delim) = [] := by split <;> simp
      rw [printedPayload, List.intercalate_cons_cons, List.filter_append, List.filter_append, hdelim, ih]
      simp

theorem runBlocks_eq_of_keepsDelim (r : List Byte) (isLast : Bool) (h : losesDelim r = false) :
    runBlocks r isLast = runBlocks r true := by
  by_cases hr : r.length = 0
  · simp [runBlocks, hr]
  · have hmod : r.length % maxRun ≠ 0 := by simpa [losesDelim, hr] using h
    simp [runBlocks, hr, hmod]

theorem interiorOf_eq_printedBlocks (runs : List (List Byte)) (h : (runs.dropLast.filter losesDelim).length = 0) :
    interiorOf runs = printedBlocks runs := by
  induction runs with
  | nil => rfl
  | cons r rs ih =>
    cases rs with
    | nil => simp [interiorOf, printedBlocks]
    | cons q rs =>
      have hall : ∀ x ∈ r :: (q :: rs).dropLast, losesDelim x = false := by
        simpa [List.filter_eq_nil_iff] using h
      obtain ⟨hr, hrs⟩ := List.forall_mem_cons.mp hall
      have hrest : ((q :: rs).dropLast.filter losesDelim).length = 0 := by
        simpa [List.filter_eq_nil_iff] using hrs
      rw [interiorOf, printedBlocks_cons, ih hrest, runBlocks_eq_of_keepsDelim r false hr]

theorem printedInterior_eq (p : List Byte) : printedInterior p = printedBlocks (splitRuns p) := rfl

theorem printedLosses_eq (p : List Byte) : printedLosses p = ((splitRuns p).dropLast.filter losesDelim).length := rfl

/-! ### The obligations -/

/-- Settles O20: a chain decodes to its payload, and an accepted input offends nowhere. -/
theorem decodeAcceptsExactlyBlockChains : Obligations.DecodeAcceptsExactlyBlockChains := by
  intro s p
  constructor
  · intro h
    obtain ⟨bs, u, hbs, rfl, rfl | ⟨c, hu⟩⟩ := eq_chainBytes_append s
    · rw [List.append_nil, cobsDecode_chainBytes bs hbs] at h
      cases h
      exact ⟨bs, hbs, List.append_nil _, rfl⟩
    · rw [(cobsDecode_eq_err_iff _ c).mpr ⟨bs, u, hbs, rfl, hu⟩] at h
      cases h
  · rintro ⟨bs, hbs, rfl, rfl⟩
    exact cobsDecode_chainBytes bs hbs

/-- Settles O15: by induction over the full blocks of the sub-run. -/
theorem runBlocksCanonicalForm : Obligations.RunBlocksCanonicalForm := runBlocks_canonical

/-- Settles O16: the interior holds pointer bytes and literals of sub-runs, neither of them 0x00. -/
theorem frameHasDelimOnlyAtItsEnds : Obligations.FrameHasDelimOnlyAtItsEnds :=
  fun p => ⟨interiorOf (splitRuns p), rfl, delim_notMem_interiorOf _ (splitRuns_free p),
    interiorOf_ne_nil _ (splitRuns_ne_nil p)⟩

/-- Settles O17: the length of the interior over the sub-runs, which joined are the payload. -/
theorem frameLengthAndBoundedExpansion : Obligations.FrameLengthAndBoundedExpansion := by
  intro p
  have hinterior := length_interiorOf (splitRuns p) (splitRuns_ne_nil p)
  have hbound := pointerBytes_le (splitRuns p) (splitRuns_ne_nil p)
  rw [intercalate_splitRuns] at hinterior hbound
  have hframe : (cobsEncode p).length = (interiorOf (splitRuns p)).length + 2 := by simp [cobsEncode]
  simp only [maxRun] at hinterior hbound
  refine ⟨?_, ?_, fun hpos => ?_⟩ <;> omega

/-- Settles O22: both decoders go through the chain of whole blocks and stop where it ends. -/
theorem byteSerialDecoderAgrees : Obligations.ByteSerialDecoderAgrees := by
  intro s
  obtain ⟨bs, u, hbs, rfl, rfl | ⟨c, hu⟩⟩ := eq_chainBytes_append s
  · rw [List.append_nil, serialDecode, serialDecodeFrom_chainBytes bs [] none hbs, cobsDecode_chainBytes bs hbs]
    simp [pendingDelim]
  · rw [serialDecode, serialDecodeFrom_chainBytes_append bs c u [] none hbs hu,
      (cobsDecode_eq_err_iff _ c).mpr ⟨bs, u, hbs, rfl, hu⟩]

/-- Settles O23: the open block of the single-pass encoder is the front of the sub-run it is in. -/
theorem singlePassEncoderAgrees : Obligations.SinglePassEncoderAgrees := serialEncode_eq

/-- Settles O24: the interiors are chains of one and of two blocks. -/
theorem nonCanonicalInteriorsAreAccepted : Obligations.NonCanonicalInteriorsAreAccepted := by
  refine ⟨cobsDecode_nil, fun a b ha hb hla hlb => ?_, fun a ha hla => ⟨?_, ?_⟩⟩
  · have hblock := cobsDecode_short_block a (pointerByte b.length :: b) (Nat.lt_succ_of_le hla) ha
    have hlast := cobsDecode_chainBytes [⟨pointerByte b.length, b⟩] (by simpa using block_wf_pointerByte b hb hlb)
    rw [chainBytes_cons] at hlast
    simp only [chainBytes, List.flatMap_nil, List.append_nil] at hlast
    rw [hlast] at hblock
    exact hblock
  · have hblock := cobsDecode_full_block a [] hla ha
    rw [cobsDecode_nil, prependPayload, List.append_nil, List.append_nil] at hblock
    exact hblock
  · have hblock := cobsDecode_full_block a [ptrMin] hla ha
    have hlast : cobsDecode [ptrMin] = .ok [] := by decide
    rw [hlast, prependPayload, List.append_nil] at hblock
    exact hblock

/-- Settles O26: the printed interior decodes to the sub-runs joined without the lost 0x00. -/
theorem printedEncoderLosesDelimiters : Obligations.PrintedEncoderLosesDelimiters := by
  intro p
  have hjoin := intercalate_splitRuns p
  have hsub := printedPayload_sublist (splitRuns p)
  have hlen := length_printedPayload (splitRuns p)
  have hfilter := filter_printedPayload (splitRuns p)
  rw [hjoin] at hsub hlen hfilter
  rw [printedInterior_eq, printedLosses_eq]
  refine ⟨⟨_, cobsDecode_printedBlocks _ (splitRuns_free p), hsub, hlen, hfilter⟩, fun hnone => ?_⟩
  rw [← interiorOf_eq_printedBlocks (splitRuns p) hnone]
  rfl

/-- Settles O25: the delimiter in front of a frame is a 0x00 at a pointer position. -/
theorem wholeFrameIsNoInterior : Obligations.WholeFrameIsNoInterior := by
  intro p s
  have hoffends : Offends .zeroPointer (cobsEncode p) := .zeroPointer _
  rw [exec_cobsDec, cobsDecode_of_offends _ _ hoffends]

end Sys2Proof.Laws

/-! The Frame Assembler over whole streams (spec/42_assembler.md sections 2 to 5). The key facts: FA.CHUNK of two chunks one
after the other is FA.CHUNK of the two joined, for every TAIL_MAX; and a stream is delimited stretches and an open one,
each of which has one effect. -/

namespace Sys2Proof.Laws

open Sys2Proof.Machine

/-! ### Chunks one after another (R81, R83) -/

theorem assemble_of_tailMax_some (n : Nat) (c : List Byte) (s : State) (h : s.config.tailMax = some n) :
    assemble c s = chunkBounded n c s := by
  rw [assemble, h]

/-- Where the boundary between two chunks falls does not matter, from every state. -/
theorem assemble_append (c d : List Byte) (s : State) : assemble (c ++ d) s = assemble d (assemble c s) := by
  have hconfig := assemble_config c s
  cases hmax : s.config.tailMax with
  | none =>
    rw [assemble_of_tailMax_none d _ (hconfig ▸ hmax), assemble_of_tailMax_none c s hmax,
      assemble_of_tailMax_none _ s hmax, ← List.append_assoc, cutAtDelims_continue]
    simp
  | some n =>
    rw [assemble_of_tailMax_some n d _ (hconfig ▸ hmax), assemble_of_tailMax_some n c s hmax,
      assemble_of_tailMax_some n _ s hmax, chunkBounded_append]

/-- The empty chunk changes nothing as long as `tail` holds no delimiter. -/
theorem assemble_nil (s : State) (h : delim ∉ s.tail) : assemble [] s = s := by
  cases hmax : s.config.tailMax with
  | none =>
    rw [assemble_of_tailMax_none [] s hmax, List.append_nil, cutAtDelims_of_not_mem _ h]
    simp
  | some n => rw [assemble_of_tailMax_some n [] s hmax, chunkBounded_nil]

/-- An FA.CHUNK right after an FA.CHUNK is one FA.CHUNK of the two chunks. -/
theorem exec_faChunk_append (c d : List Byte) (s : State) :
    execAll [.faChunk c, .faChunk d] s = exec (.faChunk (c ++ d)) s := by
  rw [execAll_pair _ _ s _ (exec_faChunk c s)]
  exact (exec_returns (.faChunk d) none (assemble c s)).trans (by rw [exec_faChunk, exec_faChunk, assemble_append])

theorem execAll_faChunks (chunks : List (List Byte)) (s : State) (h : chunks ≠ []) :
    execAll (faChunks chunks) s = exec (.faChunk chunks.flatten) s := by
  induction chunks generalizing s with
  | nil => exact absurd rfl h
  | cons c chunks ih =>
    cases chunks with
    | nil =>
      rw [List.flatten_cons, List.flatten_nil, List.append_nil]
      exact execAll_singleton _ s
    | cons d chunks =>
      rw [List.flatten_cons, ← exec_faChunk_append, execAll_pair _ _ s _ (exec_faChunk c s),
        ← ih _ (List.cons_ne_nil d chunks)]
      exact execAll_cons _ _ s _ (exec_faChunk c s)

/-! ### One byte with TAIL_MAX = `none` (R81) -/

theorem feed_config (b : Byte) (s : State) : (feed b s).config = s.config := by
  rw [feed, process_eq]
  split <;> rfl

theorem feed_free (b : Byte) (s : State) (h : delim ∉ s.tail) : delim ∉ (feed b s).tail := by
  rw [feed, process_eq]
  split
  · exact List.not_mem_nil
  · rename_i hb
    simpa [h] using Ne.symm hb

theorem assemble_byte (b : Byte) (s : State) (hmax : s.config.tailMax = none) (h : delim ∉ s.tail) :
    assemble [b] s = feed b s := by
  rw [assemble_of_tailMax_none [b] s hmax, feed]
  by_cases hb : b = delim
  · have hcut := cutAtDelims_append s.tail [] h
    rw [if_pos hb, hb, hcut, process_eq]
    simp [cutAtDelims, State.setTail]
  · have hfree : delim ∉ s.tail ++ [b] := by simpa [h] using Ne.symm hb
    rw [if_neg hb, cutAtDelims_of_not_mem _ hfree]
    simp [State.setTail]

theorem assemble_eq_foldl_feed (chunk : List Byte) (s : State) (hmax : s.config.tailMax = none)
    (h : delim ∉ s.tail) : assemble chunk s = chunk.foldl (fun t b => feed b t) s := by
  induction chunk generalizing s with
  | nil => exact assemble_nil s h
  | cons b chunk ih =>
    have hrest := ih (feed b s) (by rwa [feed_config]) (feed_free b s h)
    rw [← assemble_byte b s hmax h, ← assemble_append] at hrest
    rw [List.foldl_cons, ← assemble_byte b s hmax h]
    exact hrest

/-! ### Stretches with TAIL_MAX = N (R83) -/

/-- A stream is delimited stretches, one after another, and an open one. -/
theorem stream_induction {P : List Byte → Prop} (opened : ∀ g, delim ∉ g → P g)
    (ended : ∀ g rest, delim ∉ g → P rest → P (g ++ delim :: rest)) (s : List Byte) : P s := by
  induction hn : s.length using Nat.strong_induction_on generalizing s with
  | _ n ih =>
    by_cases hmem : delim ∈ s
    · obtain ⟨g, rest, rfl, hg⟩ := List.eq_append_cons_of_mem hmem
      have hlt : rest.length < n := by
        simp only [List.length_append, List.length_cons] at hn
        omega
      exact ended g rest hg (ih _ hlt rest rfl)
    · exact opened s hmem

/-- FEED_N by its five branches. -/
theorem feedBounded_eq (n : Nat) (b : Byte) (s : State) :
    feedBounded n b s =
      if b = delim then
        if s.drop = true then { s with drop := false }
        else { s with tail := [], out := s.out ++ stretchEvents s.tail }
      else if s.drop = true then s
      else if s.tail.length = n then { s with tail := [], drop := true, out := s.out ++ [.frameError .frameTooLong] }
      else { s with tail := s.tail ++ [b] } := by
  rw [feedBounded, process_eq]
  rfl

theorem feedBounded_dropping (n : Nat) (b : Byte) (s : State) (hb : b ≠ delim) (hd : s.drop = true) :
    feedBounded n b s = s := by
  simp [feedBounded, hb, hd]

/-- While an over-long frame is being dropped, bytes without a delimiter change nothing. -/
theorem chunkBounded_dropping (n : Nat) (g : List Byte) (s : State) (hfree : delim ∉ g) (hd : s.drop = true) :
    chunkBounded n g s = s := by
  induction g with
  | nil => rfl
  | cons b g ih =>
    obtain ⟨hb, hg⟩ := List.ne_and_not_mem_of_not_mem_cons hfree
    rw [chunkBounded_cons, feedBounded_dropping n b s hb.symm hd, ih hg]

/-- The delimiter that ends a dropped frame gives no event. -/
theorem feedBounded_delim_dropping (n : Nat) (s : State) (hd : s.drop = true) :
    feedBounded n delim s = s.setDrop false := by
  simp [feedBounded, hd]

theorem cutAtDelims_fst_eq_nil_iff (s : List Byte) : (cutAtDelims s).1 = [] ↔ delim ∉ s := by
  constructor
  · intro h hmem
    obtain ⟨g, rest, rfl, hg⟩ := List.eq_append_cons_of_mem hmem
    rw [cutAtDelims_append g rest hg] at h
    cases h
  · intro h
    rw [cutAtDelims_of_not_mem s h]

/-- Where a stream leaves the assembler, from the stretches it has ended and the one it has opened: the events of the ended
ones, and the open one in `tail`, or its one event and `drop` when it has outgrown TAIL_MAX. -/
def leftBounded (n : Nat) (ended : List (List Byte)) (g : List Byte) (s : State) : State :=
  { s with
    tail := if g.length ≤ n then g else []
    drop := decide (n < g.length)
    out := s.out ++ ended.flatMap (stretchEventsBounded n) ++
      (if n < g.length then [.frameError .frameTooLong] else []) }

theorem leftBounded_tail (n : Nat) (s : State) (hd : s.drop = false) (hn : s.tail.length ≤ n) :
    leftBounded n [] s.tail s = s := by
  simp [leftBounded, hn, Nat.not_lt.mpr hn, ← hd]

/-- Bytes without a delimiter join the open stretch, or make it over-long. -/
theorem chunkBounded_opened (n : Nat) (g : List Byte) (s : State) (hfree : delim ∉ g) (hd : s.drop = false)
    (hn : s.tail.length ≤ n) : chunkBounded n g s = leftBounded n [] (s.tail ++ g) s := by
  induction g generalizing s with
  | nil => rw [chunkBounded_nil, List.append_nil, leftBounded_tail n s hd hn]
  | cons b g ih =>
    obtain ⟨hb, hg⟩ := List.ne_and_not_mem_of_not_mem_cons hfree
    rw [chunkBounded_cons]
    by_cases hlen : s.tail.length = n
    · have hlong : n < s.tail.length + (g.length + 1) := by omega
      rw [feedBounded_overflow n b s hb.symm hd hlen, chunkBounded_dropping n g _ hg rfl]
      simp [leftBounded, hlong, Nat.not_le.mpr hlong]
    · have hroom : (s.tail ++ [b]).length ≤ n := by
        simp only [List.length_append, List.length_singleton]
        omega
      rw [feedBounded_append n b s hb.symm hd hlen, ih (s.setTail (s.tail ++ [b])) hg hd hroom, setTail_tail,
        List.append_assoc]
      rfl

/-- A delimited stretch gives its events, whatever its length, and the bytes after it are handled from an empty `tail`. -/
theorem chunkBounded_ended (n : Nat) (g rest : List Byte) (s : State) (hfree : delim ∉ g) (hd : s.drop = false)
    (hn : s.tail.length ≤ n) :
    chunkBounded n (g ++ delim :: rest) s =
      chunkBounded n rest
        { s with tail := [], drop := false, out := s.out ++ stretchEventsBounded n (s.tail ++ g) } := by
  rw [chunkBounded_append, chunkBounded_opened n g s hfree hd hn, chunkBounded_cons]
  congr 1
  by_cases hfits : (s.tail ++ g).length ≤ n
  · have hclear : (leftBounded n [] (s.tail ++ g) s).drop = false := by simpa [leftBounded] using hfits
    rw [feedBounded_delim n _ hclear]
    simp only [leftBounded, stretchEventsBounded, hfits, Nat.not_lt.mpr hfits]
    simp
  · have hdropping : (leftBounded n [] (s.tail ++ g) s).drop = true := by simpa [leftBounded] using hfits
    rw [feedBounded_delim_dropping n _ hdropping]
    simp only [leftBounded, stretchEventsBounded, hfits, Nat.not_le.mp hfits, State.setDrop]
    simp

/-- FA.CHUNK with TAIL_MAX = N from a state that drops nothing, stretch by stretch. -/
theorem chunkBounded_eq_leftBounded (n : Nat) (chunk : List Byte) (s : State) (hfree : delim ∉ s.tail)
    (hd : s.drop = false) (hn : s.tail.length ≤ n) :
    chunkBounded n chunk s =
      leftBounded n (cutAtDelims (s.tail ++ chunk)).1 (cutAtDelims (s.tail ++ chunk)).2 s := by
  induction chunk using stream_induction generalizing s with
  | opened g hg =>
    have hopen : delim ∉ s.tail ++ g := by simp [hfree, hg]
    rw [chunkBounded_opened n g s hg hd hn, cutAtDelims_of_not_mem _ hopen]
  | ended g rest hg ih =>
    have hstretch : delim ∉ s.tail ++ g := by simp [hfree, hg]
    have hrest := ih { s with tail := [], drop := false, out := s.out ++ stretchEventsBounded n (s.tail ++ g) }
      List.not_mem_nil rfl (Nat.zero_le n)
    rw [chunkBounded_ended n g rest s hg hd hn, ← List.append_assoc, cutAtDelims_append _ rest hstretch, hrest]
    simp [leftBounded]

/-- The bytes in front of a stream stand in its first stretch, so they are within any bound on the stretches. -/
theorem length_le_of_stretches (n : Nat) (front rest : List Byte) (hfree : delim ∉ front)
    (hgs : ∀ g ∈ (cutAtDelims (front ++ rest)).1, g.length ≤ n) (hg : (cutAtDelims (front ++ rest)).2.length ≤ n) :
    front.length ≤ n := by
  by_cases hmem : delim ∈ rest
  · obtain ⟨g, after, rfl, hgfree⟩ := List.eq_append_cons_of_mem hmem
    rw [← List.append_assoc, cutAtDelims_append (front ++ g) after (by simp [hfree, hgfree])] at hgs
    have hfirst := hgs (front ++ g) List.mem_cons_self
    rw [List.length_append] at hfirst
    omega
  · rw [cutAtDelims_of_not_mem (front ++ rest) (by simp [hfree, hmem]), List.length_append] at hg
    omega

/-! ### The events of a stretch -/

/-- A stretch without a 0x00 fails with OVERRUN if at all (R78). -/
theorem frameError_mem_stretchEvents (g : List Byte) (c : ErrorCode) (hfree : delim ∉ g)
    (h : Event.frameError c ∈ stretchEvents g) : c = .malformed .overrun := by
  cases hd : cobsDecode g with
  | err cause =>
    rw [stretchEvents_of_err g cause hd] at h
    obtain rfl : c = .malformed cause := by simpa using h
    rw [decodeBlocks_err_of_not_mem g.length g cause hfree hd]
  | ok p =>
    cases g with
    | nil => simp [stretchEvents] at h
    | cons b g => cases p <;> simp [stretchEvents, hd] at h

/-- The interior of a frame gives its payload, unless that is empty (R61, R79). -/
theorem stretchEvents_interior (p : List Byte) :
    stretchEvents (interiorOf (splitRuns p)) = if p = [] then [] else [.payload p] := by
  have hne := interiorOf_ne_nil _ (splitRuns_ne_nil p)
  have hd := cobsDecode_interiorOf _ (splitRuns_ne_nil p) (splitRuns_free p)
  rw [intercalate_splitRuns] at hd
  cases p <;> simp [stretchEvents, hne, hd]

/-- The interior of a frame and its closing delimiter, fed to an empty `tail`, give the payload and leave `tail` empty. -/
theorem assemble_interior_delim (p : List Byte) (s : State) (ht : s.tail = []) (hd : s.drop = false)
    (hn : ∀ n, s.config.tailMax = some n → (cobsEncode p).length - 2 ≤ n) :
    assemble (interiorOf (splitRuns p) ++ [delim]) s =
      { s with out := s.out ++ if p = [] then [] else [.payload p] } := by
  obtain ⟨config, crc, tail, drop, out, beats, result⟩ := s
  obtain rfl : tail = [] := ht
  have hfree : delim ∉ [] ++ interiorOf (splitRuns p) := delim_notMem_interiorOf _ (splitRuns_free p)
  have hlen : ∀ n, config.tailMax = some n → ([] ++ interiorOf (splitRuns p)).length ≤ n := by
    simpa [cobsEncode] using hn
  rw [assemble_delimited _ [] _ hfree hd hlen, List.nil_append, stretchEvents_interior]
  exact assemble_nil _ List.not_mem_nil

/-- A delimiter at the front of an empty `tail` is skipped (R79). -/
theorem assemble_leading_delim (rest : List Byte) (s : State) (ht : s.tail = []) (hd : s.drop = false) :
    assemble (delim :: rest) s = assemble rest s := by
  obtain ⟨config, crc, tail, drop, out, beats, result⟩ := s
  obtain rfl : tail = [] := ht
  have hskip := assemble_delimited [] rest ⟨config, crc, [], drop, out, beats, result⟩ List.not_mem_nil hd (by simp)
  simpa [stretchEvents] using hskip

theorem assemble_cobsEncode (p : List Byte) (s : State) (ht : s.tail = []) (hd : s.drop = false)
    (hn : ∀ n, s.config.tailMax = some n → (cobsEncode p).length - 2 ≤ n) :
    assemble (cobsEncode p) s = { s with out := s.out ++ if p = [] then [] else [.payload p] } :=
  (assemble_leading_delim _ s ht hd).trans (assemble_interior_delim p s ht hd hn)

/-! ### The obligations -/

/-- Settles O37: the chunks are one chunk, whose stretches are the empty one and the interior. -/
theorem streamingEquivalence : Obligations.StreamingEquivalence := by
  intro p chunks s hflat ht hd hn
  have hne : chunks ≠ [] := by
    rintro rfl
    cases hflat
  rw [execAll_faChunks chunks s hne, hflat, exec_faChunk, assemble_cobsEncode p s ht hd hn]

/-- Settles O28: one byte at a time, each as FEED takes it. -/
theorem faChunkIsByteSerialFeed : Obligations.FaChunkIsByteSerialFeed := by
  intro chunk s hmax hfree
  rw [exec_faChunk, assemble_eq_foldl_feed chunk s hmax hfree]

/-- Settles O29: by induction over the chunks, two of them at a time. -/
theorem chunkBoundariesDoNotMatter : Obligations.ChunkBoundariesDoNotMatter := execAll_faChunks

/-- Settles O30: FA.BYTES are chunks of one byte; without any, the empty chunk changes nothing. -/
theorem faBytesEqualsFaChunk : Obligations.FaBytesEqualsFaChunk := by
  intro bs s hfree
  by_cases hbs : bs = []
  · refine ⟨s, _, by rw [hbs]; rfl, exec_faChunk bs s, ?_⟩
    rw [hbs, assemble_nil s hfree]
  · have hbytes : faBytes bs = faChunks (bs.map fun b => [b]) := by simp [faBytes, faChunks]
    have hflat : (bs.map fun b => [b]).flatten = bs := List.flatMap_singleton' bs
    refine ⟨{ assemble bs s with result := none }, _, ?_, exec_faChunk bs s, rfl⟩
    rw [hbytes, execAll_faChunks _ s (mt List.map_eq_nil_iff.mp hbs), hflat, exec_faChunk]

/-- Settles O31: the fold of FEED_N over the chunk, and FEED_N by its four branches. -/
theorem faChunkBoundedByteByByte : Obligations.FaChunkBoundedByteByByte := by
  intro n s hmax
  refine ⟨?_, fun b chunk => exec_faChunk_append [b] chunk s, fun b => ?_⟩
  · rw [exec_faChunk, assemble_of_tailMax_some n [] s hmax, chunkBounded_nil]
  · have hbyte := congrArg (State.returns none) (feedBounded_eq n b s)
    simp only [apply_ite (State.returns none)] at hbyte
    rw [exec_faChunk, assemble_of_tailMax_some n [b] s hmax]
    exact congrArg _ hbyte

/-- Settles O32: from a state that drops nothing, stretch by stretch; a state that drops begins so after the first
delimiter. -/
theorem faChunkBoundedByStretches : Obligations.FaChunkBoundedByStretches := by
  intro n chunk s hmax hfree hn htail
  have hexec : exec (.faChunk chunk) s = .next { chunkBounded n chunk s with result := none } := by
    rw [exec_faChunk, assemble_of_tailMax_some n chunk s hmax]
  refine ⟨fun hd => ?_, fun hd hgs => ?_, fun hd hgs => ?_⟩
  · rw [hexec, chunkBounded_eq_leftBounded n chunk s hfree hd hn]
    rfl
  · rw [htail hd, List.nil_append] at hgs
    rw [hexec, chunkBounded_dropping n chunk s ((cutAtDelims_fst_eq_nil_iff chunk).mp hgs) hd]
  · have hmem : delim ∈ chunk := by
      rw [htail hd, List.nil_append, ne_eq, cutAtDelims_fst_eq_nil_iff] at hgs
      exact not_not.mp hgs
    obtain ⟨g, rest, rfl, hg⟩ := List.eq_append_cons_of_mem hmem
    have hrest := chunkBounded_eq_leftBounded n rest (s.setDrop false) hfree rfl hn
    rw [hexec, chunkBounded_append, chunkBounded_dropping n g s hg hd, chunkBounded_cons,
      feedBounded_delim_dropping n s hd, hrest]
    simp only [setDrop_tail, htail hd, List.nil_append, cutAtDelims_append g rest hg, List.tail_cons]
    rfl

/-- Settles O33: on stretches of at most N bytes the two forms give the same events and leave the same `tail`. -/
theorem boundedAgreesOnShortStretches : Obligations.BoundedAgreesOnShortStretches := by
  intro n chunk s hmax hd hfree hgs hg
  have hn := length_le_of_stretches n s.tail chunk hfree hgs hg
  have hevents : (cutAtDelims (s.tail ++ chunk)).1.flatMap (stretchEventsBounded n) =
      (cutAtDelims (s.tail ++ chunk)).1.flatMap stretchEvents :=
    List.flatMap_congr fun g hg => if_pos (hgs g hg)
  refine ⟨_, _, exec_faChunk chunk s, exec_faChunk chunk _, ?_⟩
  rw [assemble_of_tailMax_some n chunk s hmax, chunkBounded_eq_leftBounded n chunk s hfree hd hn,
    assemble_of_tailMax_none chunk _ rfl]
  simp [leftBounded, hg, Nat.not_lt.mpr hg, hevents, hd]

/-- Settles O34: FA.CHUNK's change, and with TAIL_MAX = `none` none of `drop`. -/
theorem faChunkFrame : Obligations.FaChunkFrame := by
  intro chunk s
  obtain ⟨tail, drop, es, h, hes⟩ := assemble_change chunk s
  refine ⟨tail, drop, es, by rw [exec_faChunk, h], fun hmax => ?_, hes⟩
  rw [assemble_of_tailMax_none chunk s hmax] at h
  exact (congrArg State.drop h).symm

/-- Settles O35: each edge case by what the stream's stretches are. -/
theorem assemblerEdgeCases : Obligations.AssemblerEdgeCases := by
  intro s hmax
  refine ⟨fun chunk hfree hchunk => ?_, fun chunk ht => ?_, fun hfree => ?_, fun p hp => ?_⟩
  · have hopen : delim ∉ s.tail ++ chunk := not_or.mpr ⟨hfree, hchunk⟩ ∘ List.mem_append.mp
    rw [exec_faChunk, assemble_of_tailMax_none chunk s hmax, cutAtDelims_of_not_mem _ hopen]
    simp
  · have hempty : stretchEvents [] = [] := rfl
    have hcut : cutAtDelims (0x00#8 :: chunk) = ([] :: (cutAtDelims chunk).1, (cutAtDelims chunk).2) :=
      cutAtDelims_append [] chunk List.not_mem_nil
    rw [exec_faChunk, exec_faChunk, assemble_of_tailMax_none _ s hmax, assemble_of_tailMax_none _ s hmax, ht,
      List.nil_append, List.nil_append, hcut, List.flatMap_cons, hempty, List.nil_append]
  · rw [exec_faChunk, assemble_nil s hfree]
  · have hinterior : (cobsEncode p).drop 1 = interiorOf (splitRuns p) ++ [delim] := rfl
    rw [hinterior, exec_faChunk, assemble_interior_delim p s.resetEvent rfl rfl (by simp [hmax]), if_neg hp]
    rfl

/-- Settles O39: the frame of the empty payload, within every legal TAIL_MAX. -/
theorem emptyPayloadGivesNoEvent : Obligations.EmptyPayloadGivesNoEvent := by
  intro s ht hd hwf
  have hn : ∀ n, s.config.tailMax = some n → (cobsEncode []).length - 2 ≤ n := by
    intro n hmax
    have hlen : (cobsEncode []).length = 3 := by decide
    simpa [Config.wf, hmax, hlen] using hwf
  have h : exec (.faChunk (cobsEncode [])) s = .next { s with result := none } := by
    rw [exec_faChunk, assemble_cobsEncode [] s ht hd hn]
    simp
  exact ⟨h, h⟩

end Sys2Proof.Laws

/-! What every step keeps (spec/10_state.md section 3, spec/42_assembler.md section 5): the invariant of `tail`, `drop` and
`out`, and where the stream fed so far has left the Frame Assembler. Each is a fact about FA.CHUNK, one stretch or one byte
at a time; the other operations and a step that waits leave the assembler alone. -/

namespace Sys2Proof.Laws

open Sys2Proof.Machine

/-! ### The invariant -/

/-- Events that `out` may hold: payloads that are not empty, OVERRUN, and with a cap FRAME_TOO_LONG (R78, R79, R91). -/
def LegalEvents (c : Config) (es : List Event) : Prop :=
  (∀ p, Event.payload p ∈ es → p ≠ []) ∧
    ∀ code, Event.frameError code ∈ es → code = .malformed .overrun ∨ (code = .frameTooLong ∧ c.tailMax ≠ none)

theorem legalEvents_nil (c : Config) : LegalEvents c [] := by simp [LegalEvents]

theorem legalEvents_append {c : Config} {es fs : List Event} (he : LegalEvents c es) (hf : LegalEvents c fs) :
    LegalEvents c (es ++ fs) := by
  obtain ⟨hep, hec⟩ := he
  obtain ⟨hfp, hfc⟩ := hf
  exact ⟨fun p hp => (List.mem_append.mp hp).elim (hep p) (hfp p),
    fun code hcode => (List.mem_append.mp hcode).elim (hec code) (hfc code)⟩

theorem legalEvents_flatMap {c : Config} {gs : List (List Byte)} {f : List Byte → List Event}
    (h : ∀ g ∈ gs, LegalEvents c (f g)) : LegalEvents c (gs.flatMap f) := by
  induction gs with
  | nil => exact legalEvents_nil c
  | cons g gs ih =>
    obtain ⟨hg, hgs⟩ := List.forall_mem_cons.mp h
    exact legalEvents_append hg (ih hgs)

theorem legalEvents_stretchEvents (c : Config) (g : List Byte) (hfree : delim ∉ g) :
    LegalEvents c (stretchEvents g) :=
  ⟨payload_mem_stretchEvents g, fun code hcode => .inl (frameError_mem_stretchEvents g code hfree hcode)⟩

theorem legalEvents_frameTooLong (c : Config) (h : c.tailMax ≠ none) : LegalEvents c [.frameError .frameTooLong] := by
  simp [LegalEvents, h]

/-- The invariant, with what it says of `out` as one fact. -/
theorem inv_iff (s : State) :
    Inv s ↔ s.config.wf = true ∧ delim ∉ s.tail ∧ (s.config.tailMax = none → s.drop = false) ∧
      (∀ n, s.config.tailMax = some n → s.tail.length ≤ n ∧ (s.drop = true → s.tail = [])) ∧
      LegalEvents s.config s.out :=
  ⟨fun h => ⟨h.configWf, h.tailFree, h.dropUnbounded, h.tailBounded, h.payloadsNonempty, h.errorsLegal⟩,
    fun ⟨hwf, hfree, hdrop, hbounded, hp, he⟩ => ⟨hwf, hfree, hdrop, hbounded, hp, he⟩⟩

theorem inv_resetEvent (s : State) (h : s.config.wf = true) : Inv s.resetEvent :=
  (inv_iff _).mpr ⟨h, List.not_mem_nil, fun _ => rfl, fun n _ => ⟨Nat.zero_le n, fun _ => rfl⟩, legalEvents_nil _⟩

/-- FEED_N keeps the invariant: a delimiter empties `tail`, a byte that overflows it empties it too, and any other byte is
appended where there is room. -/
theorem inv_feedBounded (n : Nat) (b : Byte) (s : State) (hmax : s.config.tailMax = some n) (h : Inv s) :
    Inv (feedBounded n b s) := by
  obtain ⟨hwf, hfree, hdrop, hbounded, hout⟩ := (inv_iff s).mp h
  obtain ⟨hn, htail⟩ := hbounded n hmax
  have hcap : s.config.tailMax ≠ none := by simp [hmax]
  rw [feedBounded_eq, inv_iff]
  split_ifs with hb hd hd hlen
  · exact ⟨hwf, hfree, fun _ => rfl, fun m hm => ⟨(hbounded m hm).1, nofun⟩, hout⟩
  · refine ⟨hwf, List.not_mem_nil, hdrop, fun m _ => ⟨Nat.zero_le m, fun _ => rfl⟩, ?_⟩
    exact legalEvents_append hout (legalEvents_stretchEvents _ _ hfree)
  · exact ⟨hwf, hfree, hdrop, hbounded, hout⟩
  · refine ⟨hwf, List.not_mem_nil, fun hm => absurd hm hcap, fun m _ => ⟨Nat.zero_le m, fun _ => rfl⟩, ?_⟩
    exact legalEvents_append hout (legalEvents_frameTooLong _ hcap)
  · refine ⟨hwf, ?_, hdrop, fun m hm => ⟨?_, fun hd' => absurd hd' hd⟩, hout⟩
    · simpa [hfree] using Ne.symm hb
    · obtain rfl : n = m := Option.some.inj (hmax.symm.trans hm)
      rw [List.length_append, List.length_singleton]
      omega

theorem inv_chunkBounded (n : Nat) (chunk : List Byte) (s : State) (hmax : s.config.tailMax = some n) (h : Inv s) :
    Inv (chunkBounded n chunk s) := by
  induction chunk generalizing s with
  | nil => exact h
  | cons b chunk ih =>
    obtain ⟨_, _, _, hbyte, -⟩ := feedBounded_change n b s
    have hconfig : (feedBounded n b s).config = s.config := by rw [hbyte]
    exact ih _ (hconfig ▸ hmax) (inv_feedBounded n b s hmax h)

theorem inv_assemble (chunk : List Byte) (s : State) (h : Inv s) : Inv (assemble chunk s) := by
  cases hmax : s.config.tailMax with
  | some n =>
    rw [assemble_of_tailMax_some n chunk s hmax]
    exact inv_chunkBounded n chunk s hmax h
  | none =>
    obtain ⟨hwf, -, hdrop, -, hout⟩ := (inv_iff s).mp h
    obtain ⟨hended, hopen⟩ := cutAtDelims_free (s.tail ++ chunk)
    rw [assemble_of_tailMax_none chunk s hmax, inv_iff]
    refine ⟨hwf, hopen, hdrop, fun m hm => absurd (hmax.symm.trans hm) nofun, legalEvents_append hout ?_⟩
    exact legalEvents_flatMap fun g hg => legalEvents_stretchEvents _ g (hended g hg)

/-- The invariant speaks of the parameters, `tail`, `drop` and `out` only. -/
theorem inv_of_eq {s t : State} (h : Inv s) (hc : t.config = s.config) (ht : t.tail = s.tail) (hd : t.drop = s.drop)
    (ho : t.out = s.out) : Inv t := by
  rw [inv_iff] at h ⊢
  rwa [hc, ht, hd, ho]

theorem inv_exec (i : Instr) (s t : State) (h : Inv s) (hexec : exec i s = .next t) : Inv t := by
  cases ha : isAssemblerOp i with
  | false =>
    obtain ⟨v, r, he⟩ := exec_of_not_assembler i s ha
    cases hexec.symm.trans he
    exact inv_of_eq h rfl rfl rfl rfl
  | true =>
    cases i with
    | faChunk c =>
      cases hexec
      exact inv_of_eq (inv_assemble c s h) rfl rfl rfl rfl
    | crcReset | crcStep | crcRead | crcFinish | cobsEnc | cobsDec => cases ha

/-! ### The stream fed so far (R86) -/

theorem followsStream_assemble (stream chunk : List Byte) (s : State) (h : FollowsStream stream s) :
    FollowsStream (stream ++ chunk) (assemble chunk s) := by
  obtain ⟨hmax, htail, hdrop, hout⟩ := h
  have hcut := cutAtDelims_continue stream chunk
  rw [← htail] at hcut
  rw [assemble_of_tailMax_none chunk s hmax]
  refine ⟨hmax, ?_, hdrop, ?_⟩
  · rw [hcut]
  · rw [hcut, List.flatMap_append, ← hout]

/-- `FollowsStream` speaks of the parameters, `tail`, `drop` and `out` only. -/
theorem followsStream_of_eq {stream : List Byte} {s t : State} (h : FollowsStream stream s) (hc : t.config = s.config)
    (ht : t.tail = s.tail) (hd : t.drop = s.drop) (ho : t.out = s.out) : FollowsStream stream t :=
  ⟨hc ▸ h.uncapped, ht.trans h.tailIsOpen, hd.trans h.dropClear, ho.trans h.outIsEvents⟩

theorem fedBytes_of_not_assembler (i : Instr) (h : isAssemblerOp i = false) : fedBytes i = [] := by
  cases i with
  | crcReset | crcStep | crcRead | crcFinish | cobsEnc | cobsDec => rfl
  | faChunk => cases h

theorem followsStream_exec (stream : List Byte) (i : Instr) (s : State) (h : FollowsStream stream s) :
    ∃ t, exec i s = .next t ∧ FollowsStream (stream ++ fedBytes i) t := by
  cases ha : isAssemblerOp i with
  | false =>
    obtain ⟨v, r, he⟩ := exec_of_not_assembler i s ha
    rw [fedBytes_of_not_assembler i ha, List.append_nil]
    exact ⟨_, he, followsStream_of_eq h rfl rfl rfl rfl⟩
  | true =>
    cases i with
    | faChunk c =>
      exact ⟨_, exec_faChunk c s, followsStream_of_eq (followsStream_assemble stream c s h) rfl rfl rfl rfl⟩
    | crcReset | crcStep | crcRead | crcFinish | cobsEnc | cobsDec => cases ha

theorem followsStream_execAll (stream : List Byte) (is : List Instr) (s : State) (h : FollowsStream stream s) :
    ∃ t, execAll is s = .next t ∧ FollowsStream (stream ++ is.flatMap fedBytes) t := by
  induction is generalizing stream s with
  | nil => exact ⟨s, rfl, by simpa using h⟩
  | cons i is ih =>
    obtain ⟨t, ht, hfollows⟩ := followsStream_exec stream i s h
    obtain ⟨u, hu, hrest⟩ := ih _ t hfollows
    refine ⟨u, (execAll_cons i is s t ht).trans hu, ?_⟩
    rwa [List.flatMap_cons, ← List.append_assoc]

theorem followsStream_resetEvent (s : State) (hmax : s.config.tailMax = none) : FollowsStream [] s.resetEvent :=
  ⟨hmax, rfl, rfl, rfl⟩

/-- The only error a stream gives without a cap is OVERRUN (R78). -/
theorem frameError_mem_of_followsStream (stream : List Byte) (s : State) (c : ErrorCode) (h : FollowsStream stream s)
    (hc : Event.frameError c ∈ s.out) : c = .malformed .overrun := by
  rw [h.outIsEvents, List.mem_flatMap] at hc
  obtain ⟨g, hg, hmem⟩ := hc
  exact frameError_mem_stretchEvents g c ((cutAtDelims_free stream).1 g hg) hmem

/-! ### The obligations -/

/-- Settles O46: a step waits, or executes an operation on the state with its beats taken. -/
theorem stepKeepsTheInvariant : Obligations.StepKeepsTheInvariant := by
  intro s t h hstep
  obtain ⟨-, rfl⟩ | ⟨i, rest, -, hexec⟩ := step_eq_next s t hstep
  · exact h
  · exact inv_exec i (s.setBeats rest) t (inv_of_eq h rfl rfl rfl rfl) hexec

/-- Settles O57: FA.CHUNK goes on with the cut of the stream, and nothing else feeds it. -/
theorem everyStepFollowsTheStream : Obligations.EveryStepFollowsTheStream := by
  refine ⟨followsStream_exec, fun stream s t h hstep => ?_⟩
  obtain ⟨hd, rfl⟩ | ⟨i, rest, hd, hexec⟩ := step_eq_next s t hstep
  · rwa [nextFed, hd, List.append_nil]
  · obtain ⟨u, hu, hfollows⟩ := followsStream_exec stream i (s.setBeats rest) (followsStream_of_eq h rfl rfl rfl rfl)
    cases hexec.symm.trans hu
    rwa [nextFed, hd]

/-- Settles O38: reset follows the empty stream, and every operation goes on with it. -/
theorem assemblerStateIsAFunctionOfTheStream : Obligations.AssemblerStateIsAFunctionOfTheStream := by
  intro is s hmax
  obtain ⟨t, ht, hfollows⟩ := followsStream_execAll [] is s.resetEvent (followsStream_resetEvent s hmax)
  rw [List.nil_append] at hfollows
  exact ⟨t, ht, hfollows.tailIsOpen, hfollows.dropClear, hfollows.outIsEvents,
    fun c => frameError_mem_of_followsStream _ t c hfollows⟩

/-- Settles O45: after reset `tail` and `out` are empty and `drop` is clear. -/
theorem invariantHoldsAtReset : Obligations.InvariantHoldsAtReset :=
  ⟨inv_resetEvent State.reset rfl, inv_resetEvent⟩

end Sys2Proof.Laws

/-! Checksums of sequences, and the default CRC_MIX (spec/41_crc.md sections 2 and 3). The facts about the default constants
are proved bit by bit: every stage of CRC_MIX is linear over exclusive-or. -/

namespace Sys2Proof.Laws

open Sys2Proof.Machine

/-! ### Stepping a sequence (R73) -/

@[simp] theorem crcFold_nil (m : CrcMix) (c : Word) : crcFold m c [] = c := rfl

@[simp] theorem crcFold_cons (m : CrcMix) (c : Word) (b : Byte) (s : List Byte) :
    crcFold m c (b :: s) = crcFold m (crcMix m c b) s := rfl

theorem crcFold_append (m : CrcMix) (c : Word) (s t : List Byte) :
    crcFold m c (s ++ t) = crcFold m (crcFold m c s) t := List.foldl_append

/-- What CRC.STEPS leaves; a program of no step leaves the last result too. -/
theorem execAll_crcSteps (bs : List Byte) (s : State) :
    ∃ r, execAll (crcSteps bs) s = .next { s with crc := crcFold s.config.crcMix s.crc bs, result := r } := by
  induction bs generalizing s with
  | nil => exact ⟨s.result, rfl⟩
  | cons b bs ih =>
    obtain ⟨r, hr⟩ := ih { s with crc := crcMix s.config.crcMix s.crc b, result := none }
    exact ⟨r, (execAll_cons _ _ s _ (exec_crcStep b s)).trans hr⟩

theorem execAll_crcSteps_append (bs : List Byte) (is : List Instr) (s : State) :
    ∃ r, execAll (crcSteps bs ++ is) s =
      execAll is { s with crc := crcFold s.config.crcMix s.crc bs, result := r } := by
  obtain ⟨r, hr⟩ := execAll_crcSteps bs s
  exact ⟨r, execAll_append _ is s _ hr⟩

theorem execAll_crcSteps_crcRead (bs : List Byte) (s : State) :
    execAll (crcSteps bs ++ [.crcRead]) s =
      .next { s with crc := crcFold s.config.crcMix s.crc bs,
                     result := some (.word (crcFold s.config.crcMix s.crc bs)) } := by
  obtain ⟨r, hr⟩ := execAll_crcSteps_append bs [.crcRead] s
  rw [hr, execAll_singleton, exec_crcRead]

theorem execAll_crcSteps_crcFinish (bs : List Byte) (s : State) :
    execAll (crcSteps bs ++ [.crcFinish]) s =
      .next { s with crc := s.config.crcInit, result := some (.word (crcFold s.config.crcMix s.crc bs)) } := by
  obtain ⟨r, hr⟩ := execAll_crcSteps_append bs [.crcFinish] s
  rw [hr, execAll_singleton, exec_crcFinish]

/-! ### The default CRC_MIX (R69, R74) -/

/-- Rotating puts the two shifted copies on disjoint bits, so it is linear although it joins them with "or". -/
theorem ror16_xor (v w : Word) (n : Nat) : ror16 (v ^^^ w) n = ror16 v n ^^^ ror16 w n := by
  ext i hi
  by_cases hlow : i < 16 - n
  · simp [ror16, hlow]
  · have hout : 16 ≤ n + i := by omega
    simp [ror16, hlow, BitVec.getLsbD_of_ge _ _ hout]

theorem xorShift_xor (k : XorShift) (v w : Word) : xorShift k (v ^^^ w) = xorShift k v ^^^ xorShift k w := by
  obtain ⟨dir, amount, lowByteOnly⟩ := k
  cases dir <;> cases lowByteOnly <;> ext i hi <;> simp [xorShift] <;> grind

theorem zext16_xor (b₁ b₂ : Byte) : zext16 (b₁ ^^^ b₂) = zext16 b₁ ^^^ zext16 b₂ := BitVec.setWidth_xor

/-- Every CRC_MIX of the five-stage shape is linear, whatever its constants (fact (c)). -/
theorem crcMix_stages_xor (s3 s4 s5 : XorShift) (c₁ c₂ : Word) (b₁ b₂ : Byte) :
    crcMix (.stages s3 s4 s5) (c₁ ^^^ c₂) (b₁ ^^^ b₂) =
      crcMix (.stages s3 s4 s5) c₁ b₁ ^^^ crcMix (.stages s3 s4 s5) c₂ b₂ := by
  have hin : ror16 (c₁ ^^^ c₂) 8 ^^^ zext16 (b₁ ^^^ b₂) =
      (ror16 c₁ 8 ^^^ zext16 b₁) ^^^ (ror16 c₂ 8 ^^^ zext16 b₂) := by
    rw [ror16_xor, zext16_xor]
    ac_rfl
  simp only [crcMix, hin, xorShift_xor]

theorem crcMix_default_xor (c₁ c₂ : Word) (b₁ b₂ : Byte) :
    crcMix defaultCrcMix (c₁ ^^^ c₂) (b₁ ^^^ b₂) = crcMix defaultCrcMix c₁ b₁ ^^^ crcMix defaultCrcMix c₂ b₂ :=
  crcMix_stages_xor _ _ _ c₁ c₂ b₁ b₂

/-- The byte 0x00 takes no state but 0x0000 to 0x0000. -/
theorem crcMix_default_zero_eq_zero (v : Word) (h : crcMix defaultCrcMix v 0x00#8 = 0x0000#16) : v = 0x0000#16 := by
  have hbits := crcMix_default_zero_bits v _ h
  ext i hi
  interval_cases i <;> simp_all

theorem crcMix_default_injective (b : Byte) : Function.Injective fun c : Word => crcMix defaultCrcMix c b := by
  intro c₁ c₂ h
  have hdiff := crcMix_default_xor c₁ c₂ b b
  rw [BitVec.xor_self] at hdiff
  have hzero := crcMix_default_zero_eq_zero _ (hdiff.trans (BitVec.xor_eq_zero_iff.mpr h))
  exact BitVec.xor_eq_zero_iff.mp hzero

/-- One bit of the bit-serial step: the state shifted, and bit 15 at every place where 0x1021 has a 1 (R74 (d)). -/
theorem crcBit_getElem (v : Word) (i : Nat) (hi : i < 16) :
    (crcBit v)[i] = ((v <<< 1)[i] ^^ (v[15] && (0x1021#16)[i])) := by
  cases h : v[15] <;> simp [crcBit, h]

/-- Bit for bit, the stages and the eight shifts add up the same bits of the state and the byte (fact (d)). -/
theorem crcMix_default_eq_crcBitSerial (v : Word) (b : Byte) : crcMix defaultCrcMix v b = crcBitSerial v b := by
  ext i hi
  interval_cases i <;> simp [crcBitSerial, crcBit_getElem, crcMix, defaultCrcMix, xorShift, ror16, zext16]
  · grind -- bit 12, where the two forms add the same bits in different orders

/-- A state's own high byte cancels it in stage 2: only the low byte is left, moved up (fact (e)). -/
theorem crcMix_default_high_byte (v : Word) : crcMix defaultCrcMix v (v.extractLsb' 8 8) = v <<< 8 := by
  ext i hi
  interval_cases i <;> simp [crcMix, defaultCrcMix, xorShift, ror16, zext16]

theorem crcFold_default_own_bytes (v : Word) :
    crcFold defaultCrcMix v [v.extractLsb' 8 8, v.extractLsb' 0 8] = 0x0000#16 := by
  have hlow : v.extractLsb' 0 8 = (v <<< 8).extractLsb' 8 8 := by
    ext i hi
    have hin : 8 + i < 16 := by omega
    have hiv : i < 16 := by omega
    simp [hin, BitVec.getLsbD_eq_getElem hiv]
  rw [crcFold_cons, crcFold_cons, crcFold_nil, crcMix_default_high_byte, hlow, crcMix_default_high_byte]
  ext i hi
  simp

/-! ### The obligations -/

/-- Settles O8: a sequence of CRC.STEP folds from whatever the operation before it has left in `crc`. -/
theorem checksumOfASequence : Obligations.ChecksumOfASequence := by
  intro s bs cs
  refine ⟨?_, ?_, execAll_crcSteps_crcRead bs s, ?_⟩
  · rw [List.cons_append, execAll_cons _ _ s _ (exec_crcReset s), execAll_crcSteps_crcRead]
    rfl
  · rw [List.cons_append, execAll_cons _ _ s _ (exec_crcReset s), execAll_crcSteps_crcFinish]
    rfl
  · rw [List.append_assoc, execAll_append _ _ s _ (execAll_crcSteps_crcFinish bs s), execAll_crcSteps_crcRead]
    rfl

/-- Settles O9: injective by linearity and the kernel, and the 65536 states are finitely many. -/
theorem defaultCrcMixIsBijective : Obligations.DefaultCrcMixIsBijective :=
  fun b => Finite.injective_iff_bijective.mp (crcMix_default_injective b)

/-- Settles O10: the linearity of the five-stage shape, at the default constants. -/
theorem defaultCrcMixIsLinear : Obligations.DefaultCrcMixIsLinear := crcMix_default_xor

/-- Settles O11: bit for bit. -/
theorem defaultCrcMixEqualsBitSerial : Obligations.DefaultCrcMixEqualsBitSerial := crcMix_default_eq_crcBitSerial

/-- Settles O12: after the sequence the state steps its own two bytes. -/
theorem defaultCrcResidueIsZero : Obligations.DefaultCrcResidueIsZero := by
  intro start s
  exact (crcFold_append _ start s _).trans (crcFold_default_own_bytes _)

/-- Settles O7: the stages with the constants of R69 put in. -/
theorem defaultCrcMixStageByStage : Obligations.DefaultCrcMixStageByStage := by
  intro c b
  simp only [crcMix, defaultCrcMix, xorShift, ror16, zext16]
  rfl

end Sys2Proof.Laws
